-- ==== Sys2Proof/Word.lean ====
section
/-! DEFINITION. The word types of CORE: the 8-bit byte of cells, registers and instruction bytes, and the 9-bit program counter. -/

namespace Sys2Proof

/-- A memory cell, a register, an instruction byte (00_scope R6, R7): 8 bits, read as unsigned. -/
abbrev Byte := BitVec 8

/-- The program counter's width (10_state R16, decision D2): 9 bits, of which the machine uses 0 to 256. -/
abbrev Pc := BitVec 9

/-- A legal register index, 0 to 7 (10_state R10). -/
abbrev RegIndex := Fin 8

end Sys2Proof
end

