-- ==== Sys2Proof/Machine/Flags.lean ====
section
/-! DEFINITION. There are no flags (10_state R21): what stands in their place is the silent narrowing of a result to 8 bits (43_alu R72), and the exact results of the four places where arithmetic happens. -/

namespace Sys2Proof.Machine

open Sys2Proof

/-- Keep the low 8 bits and drop the rest: no carry, no overflow flag, no trap (10_state R13, decision D1). -/
def narrow (v : Nat) : Byte := BitVec.ofNat 8 v

/-- The exact sum of ADD, 0 to 510 (43_alu R69). -/
def exactSum (a b : Byte) : Nat := a.toNat + b.toNat

/-- The exact product of MUL, 0 to 65025 (43_alu R70). -/
def exactProduct (a b : Byte) : Nat := a.toNat * b.toNat

/-- The stack pointer decremented, `(v + 255)` before narrowing (44_stack R76, R78). -/
def exactDecrement (a : Byte) : Nat := a.toNat + 255

/-- The stack pointer incremented, `(v + 1)` before narrowing (44_stack R77, R78). -/
def exactIncrement (a : Byte) : Nat := a.toNat + 1

end Sys2Proof.Machine
end

