-- ==== Sys2Proof/Config.lean ====
section
/-! DEFINITION. The parameters of 00_scope R5: what the hardware fixes, and the two parameters 92_eei_decisions leaves open, at their defaults. -/

namespace Sys2Proof.Config

/-- MEM_SIZE (00_scope R5, 20_memory R27). -/
abbrev memSize : Nat := 256

/-- SP_INDEX (00_scope R5, 10_state R11). -/
abbrev spIndex : RegIndex := 7

/-- SP_INIT (00_scope R5, 10_state R26). -/
abbrev spInit : Byte := 0xF4#8

/-- PC_INIT (00_scope R5, 10_state R26). -/
abbrev pcInit : Pc := 0

/-- LOAD_BASE (00_scope R5, 70_reset_and_hazards R99). -/
abbrev loadBase : Nat := 0

/-- The length of the longest instruction in bytes (30_encoding R43). -/
abbrev maxWidth : Nat := 3

/-- The OPEN parameter OUT_SEP at its default, one line feed (42_output_and_halt R66, decision D11).
The functions that render text take the separator as an argument; nothing in the core depends on it. -/
def outSep : List Char := ['\n']

/-- The OPEN parameter TRACE at its default, absent (60_exceptions R95, decision D13).
The trace functions take it as an argument; nothing in the core depends on it. -/
def tracePresent : Bool := false

end Sys2Proof.Config
end

