-- ==== Sys2Proof/Machine/State.lean ====
section
/-! DEFINITION. The state of CORE as plain data (10_state R9), the fault record (60_exceptions R81), the reasons a step has no next state, and the state after reset (10_state R26). -/

namespace Sys2Proof.Machine

open Sys2Proof

/-- What FAULT records (60_exceptions R81): the cause and its info. In every record `pc` is the address of
the opcode byte of the instruction in whose cycle the fault arose. -/
inductive FaultRecord where
  /-- Code 1, raised by the dispatcher after the fetch (60_exceptions R82, 40_dispatch_loop R60). -/
  | unknownInstruction (opcode : Byte) (pc : Pc)
  /-- Code 2, raised by the Arithmetic Unit; no run reaches it (60_exceptions R83, 43_alu R71). -/
  | unsupportedAluOperation (pc : Pc)
  /-- Code 3, raised by MemRead and MemWrite (60_exceptions R84, 20_memory R31). -/
  | memoryAddressOutOfRange (address : Nat) (pc : Pc)
  /-- Code 4, raised by a register read or write (60_exceptions R85, 10_state R12, R13). -/
  | registerIndexOutOfRange (index : Byte) (pc : Pc)
  deriving DecidableEq, Repr

/-- Memory as data: (address, cell) pairs in the canonical form `Memory.wf` (Machine/Ops.lean). -/
abbrev Memory := List Host.Cell

/-- The complete architectural state `(M, x, pc, RUN, FAULT, OUT)` of 10_state R9. -/
structure State where
  /-- `M`, 256 cells of 8 bits (20_memory R27); an unlisted cell holds 0x00 (DEDUCED, assumption log 15). -/
  mem : Memory
  /-- `x`, the Register File, 8 registers of 8 bits (10_state R10); index 7 is the Stack Pointer (R11). -/
  x : Vector Byte 8
  /-- `pc` (10_state R15, R16). -/
  pc : Pc
  /-- `RUN`, the Running Flag (10_state R18). -/
  run : Bool
  /-- `FAULT`, the fault latch (10_state R19). -/
  fault : Option FaultRecord
  /-- `OUT`, the output sequence, oldest first (10_state R20). -/
  out : List Byte
  deriving DecidableEq, Repr

/-- The three run states of 10_state R19. -/
inductive RunState where
  | running
  | halted
  | faulted (record : FaultRecord)
  deriving DecidableEq, Repr

/-- Why a step answers no next state. A spec fault is NOT among these: `raise` is a next state in which
FAULT is set (60_exceptions R88; DEDUCED, assumption log 2). These are the two states of 40_dispatch_loop R63 that have "no next state"
(DEDUCED, assumption log 1). -/
inductive Fault where
  /-- Raised by `step` in a halted state (RUN false, FAULT none). Safe: the spec gives such a state no next state. -/
  | halted
  /-- Raised by `step` in a faulted state (FAULT set), with the record. Safe: the spec gives such a state no next state. -/
  | faulted (record : FaultRecord)
  deriving DecidableEq, Repr

/-- Refusals: this model gives every instruction its meaning and refuses none. -/
inductive Refusal where
  /-- An instruction without a meaning; no arm of exec answers it. Safe. -/
  | notModelled (mnemonic : String)
  deriving DecidableEq, Repr

/-- The state after reset (10_state R26); every value is the spec's. -/
def State.reset : State where
  mem := []
  x := #v[0, 0, 0, 0, 0, 0, 0, Config.spInit]
  pc := Config.pcInit
  run := true
  fault := none
  out := []

end Sys2Proof.Machine
end

