-- ==== Sys2Proof/Machine/Ops.lean ====
section
/-! DEFINITION. The named operations of the pseudocode (00_scope R8): memory, registers, the program counter, the output sequence, the Running Flag, and `raise`, the one way a fault is taken. -/

namespace Sys2Proof.Machine

open Sys2Proof

/-! ### Memory as canonical data -/

/-- `M[a]`: the value last written, or 0x00 (20_memory R27). -/
def Memory.read : Memory → Nat → Byte
  | [], _ => 0
  | c :: m, a => if c.1 = a then c.2 else Memory.read m a

/-- Put a listed cell in its place by address. -/
def Memory.insert (c : Host.Cell) : Memory → Memory
  | [] => [c]
  | d :: m => if c.1 < d.1 then c :: d :: m else d :: Memory.insert c m

/-- `M[a] := v`: only cell `a` changes; a cell that holds 0x00 is not listed. -/
def Memory.write (m : Memory) (a : Nat) (v : Byte) : Memory :=
  let rest := m.filter fun c => c.1 != a
  if v = 0 then rest else Memory.insert (a, v) rest

/-- The canonical form: addresses strictly rising, within 0 to 255, and no cell listed that holds 0x00. -/
abbrev Memory.wf (m : Memory) : Prop :=
  m.Pairwise (fun c d => c.1 < d.1) ∧ ∀ c ∈ m, c.1 < Config.memSize ∧ c.2 ≠ 0

/-- Write a run of bytes at ascending addresses (70_reset_and_hazards R99, R100). -/
def Memory.writeBytes (m : Memory) (a : Nat) : List Byte → Memory
  | [] => m
  | b :: bs => Memory.writeBytes (m.write a b) (a + 1) bs

/-! ### Plain reads and updates of the state -/

/-- The value register `i` holds. -/
def State.reg (s : State) (i : RegIndex) : Byte := s.x[i]

/-- The Stack Pointer, register 7 (10_state R11). -/
def State.sp (s : State) : Byte := s.reg Config.spIndex

/-- `register i := v mod 256` (10_state R13). -/
def State.setReg (s : State) (i : RegIndex) (v : Nat) : State := { s with x := s.x.set i (narrow v) }

/-- `M[a] := v mod 256` at a legal address (20_memory R30). -/
def State.setCell (s : State) (a : Nat) (v : Nat) : State := { s with mem := s.mem.write a (narrow v) }

/-- `pc <- pc + width`, the last action of every handler (10_state R17). It wraps only from values the pc never
holds (DESIGN CHOICE, safe, assumption log 4). -/
def State.advance (s : State) (width : Nat) : State := { s with pc := s.pc + BitVec.ofNat 9 width }

/-- `OUT <- OUT ++ [v]` (10_state R20). -/
def State.emit (s : State) (v : Byte) : State := { s with out := s.out ++ [v] }

/-- `RUN <- false` (10_state R18). -/
def State.halt (s : State) : State := { s with run := false }

/-- `FAULT <- r`; M, x, pc, RUN and OUT keep their values (60_exceptions R88). -/
def State.latch (s : State) (r : FaultRecord) : State := { s with fault := some r }

/-! ### Access primitives that can raise -/

/-- `MemRead(a, 1)` (20_memory R29). -/
def State.memRead (s : State) (a : Nat) : Except FaultRecord Byte :=
  if a > 255 then .error (.memoryAddressOutOfRange a s.pc) else .ok (s.mem.read a)

/-- `MemWrite(a, 1, v)` (20_memory R30). -/
def State.memWrite (s : State) (a v : Nat) : Except FaultRecord State :=
  if a > 255 then .error (.memoryAddressOutOfRange a s.pc) else .ok (s.setCell a v)

/-- The check of a register index, the byte whole, never masked (10_state R12, R13, decision D4). -/
def State.checkIndex (s : State) (i : Byte) : Except FaultRecord RegIndex :=
  if h : i.toNat > 7 then .error (.registerIndexOutOfRange i s.pc) else .ok ⟨i.toNat, by omega⟩

/-! ### Taking a fault -/

/-- `raise r` (60_exceptions R88): a NEXT state, in which only FAULT differs from the state `s` at the start
of the cycle. No handler exists, and there is no return from a fault (60_exceptions R89). -/
def State.raise (s : State) (r : FaultRecord) : Host.Outcome State Fault Refusal := .next (s.latch r)

/-- The end of a handler that began in `s`: all of its effects, or the fault it met with none of them
(40_dispatch_loop R62: a fault is precise; UNVERIFIED, decision D6, assumption log 3). -/
def State.settle (s : State) : Except FaultRecord State → Host.Outcome State Fault Refusal
  | .ok t => .next t
  | .error r => s.raise r

/-! ### The run states -/

/-- Running, halted or faulted (10_state R19, 40_dispatch_loop R55). -/
def State.runState (s : State) : RunState :=
  match s.fault with
  | some r => .faulted r
  | none => if s.run then .running else .halted

/-- Bytes written from the pc up, as far as the address space goes. -/
def State.placeBytes (s : State) (bytes : List Byte) : State :=
  { s with mem := s.mem.writeBytes s.pc.toNat (bytes.take (Config.memSize - s.pc.toNat)) }

end Sys2Proof.Machine
end

