-- ==== Sys2Proof/Machine/Operands.lean ====
section
/-! DEFINITION. The two operand forms (30_encoding R45, R46) and the register accesses through them (10_state R12, R13). -/

namespace Sys2Proof.Machine

open Sys2Proof

/-- The register operand: the whole byte as the index, or RegisterIndexOutOfRange (30_encoding R45). -/
def regOperand (a : Byte) (s : State) : Except FaultRecord RegIndex := s.checkIndex a

/-- The immediate operand: the whole byte, unchanged (30_encoding R46). -/
def immOperand (imm : Byte) : Nat := imm.toNat

/-- `x[i]` as 10_state R12 writes it: the register's value, or the fault. -/
def readReg (s : State) (i : Byte) : Except FaultRecord Byte := do
  let r ← s.checkIndex i
  .ok (s.reg r)

/-- `x[i] <- v` as 10_state R13 writes it: the low 8 bits of `v`, or the fault. -/
def writeReg (s : State) (i : Byte) (v : Nat) : Except FaultRecord State := do
  let r ← s.checkIndex i
  .ok (s.setReg r v)

end Sys2Proof.Machine
end

