-- ==== Sys2Proof/Machine/Alu.lean ====
section
/-! DEFINITION. The Arithmetic Unit as a block (43_alu R68 to R72) and MUL, the one instruction that uses it (43_alu R73). -/

namespace Sys2Proof.Machine

open Sys2Proof

/-- The operation selector (43_alu R68, decision D17): `other` stands for every selector that is neither
(kept by DESIGN CHOICE, safe, assumption log 8). -/
inductive AluOp where
  | add | mul | other
  deriving DecidableEq, Repr

/-- `ALU(op, a, b)` (43_alu R68 to R71): reads `x[a]` and `x[b]`, writes `x[a]`; any other operation raises
before reading or writing a register. The pc is not touched by the unit. -/
def alu (op : AluOp) (a b : RegIndex) (s : State) : Except FaultRecord State :=
  match op with
  | .add => .ok (s.setReg a (exactSum (s.reg a) (s.reg b)))
  | .mul => .ok (s.setReg a (exactProduct (s.reg a) (s.reg b)))
  | .other => .error (.unsupportedAluOperation s.pc)

/-- MUL (43_alu R73): both indices are checked, `a` first, before the unit is asked. -/
def execMul (a b : Byte) (s : State) : Host.Outcome State Fault Refusal :=
  s.settle do
    let ra ← regOperand a s
    let rb ← regOperand b s
    let t ← alu .mul ra rb s
    .ok (t.advance 3)

end Sys2Proof.Machine
end

