-- ==== Sys2Proof/Machine/Load.lean ====
section
/-! DEFINITION. LDI, load immediate (41_load_immediate R64). -/

namespace Sys2Proof.Machine

open Sys2Proof

/-- LDI (41_load_immediate R64). -/
def execLdi (a imm : Byte) (s : State) : Host.Outcome State Fault Refusal :=
  s.settle do
    let ra ← regOperand a s
    .ok ((s.setReg ra (immOperand imm)).advance 3)

end Sys2Proof.Machine
end

