-- ==== Sys2Proof/Machine/Stack.lean ====
section
/-! DEFINITION. PUSH and POP, the stack instructions (44_stack R75 to R79). -/

namespace Sys2Proof.Machine

open Sys2Proof

/-- PUSH (44_stack R76): the index is checked, the pointer is decremented, then `x[a]` is read and stored at
the NEW pointer; so `PUSH R7` stores the decremented pointer (R79 c; UNVERIFIED, decision D10, assumption log 7). -/
def execPush (a : Byte) (s : State) : Host.Outcome State Fault Refusal :=
  s.settle do
    let ra ← regOperand a s
    let t := s.setReg Config.spIndex (exactDecrement s.sp)
    let u ← t.memWrite t.sp.toNat (t.reg ra).toNat
    .ok (u.advance 2)

/-- POP (44_stack R77): the cell at the CURRENT pointer goes to `x[a]`, then register 7 is incremented; so
`POP R7` leaves one more than the popped value (R79 d; UNVERIFIED, decision D10, assumption log 7). -/
def execPop (a : Byte) (s : State) : Host.Outcome State Fault Refusal :=
  s.settle do
    let ra ← regOperand a s
    let v ← s.memRead s.sp.toNat
    let t := s.setReg ra v.toNat
    .ok ((t.setReg Config.spIndex (exactIncrement t.sp)).advance 2)

end Sys2Proof.Machine
end

