-- ==== Sys2Proof/Machine/System.lean ====
section
/-! DEFINITION. PRN, the machine's only output, and HLT, its only normal end (42_output_and_halt R65, R67). -/

namespace Sys2Proof.Machine

open Sys2Proof

/-- PRN (42_output_and_halt R65): the value goes to OUT; its text form is the host's (Machine/HostSide.lean). -/
def execPrn (a : Byte) (s : State) : Host.Outcome State Fault Refusal :=
  s.settle do
    let ra ← regOperand a s
    .ok ((s.emit (s.reg ra)).advance 2)

/-- HLT (42_output_and_halt R67): it advances the pc like any other instruction and cannot fault. -/
def execHlt (s : State) : Host.Outcome State Fault Refusal :=
  s.settle (.ok (s.halt.advance 1))

end Sys2Proof.Machine
end

