-- ==== Sys2Proof/Syntax.lean ====
section
/-! DEFINITION. The six instructions of CORE as syntax, one constructor per row of the opcode map (30_encoding R47), and the opcodes by name. -/

namespace Sys2Proof

/-- An instruction with its operand bytes. A register operand is the WHOLE byte, 0 to 255, because
30_encoding R45 uses it "as the register index as it stands" and a byte above 7 is an instruction that
raises RegisterIndexOutOfRange with that byte in its record, not an encoding that does not exist
(DEDUCED, safe, assumption log 5). -/
inductive Instr where
  /-- `LDI a, imm` (41_load_immediate R64). -/
  | ldi (a imm : Byte)
  /-- `PRN a` (42_output_and_halt R65). -/
  | prn (a : Byte)
  /-- `HLT` (42_output_and_halt R67). -/
  | hlt
  /-- `MUL a, b` (43_alu R73). -/
  | mul (a b : Byte)
  /-- `PUSH a` (44_stack R76). -/
  | push (a : Byte)
  /-- `POP a` (44_stack R77). -/
  | pop (a : Byte)
  deriving DecidableEq, Repr

/-- The six opcodes by name (30_encoding R47), before any operand is read. -/
inductive Opcode where
  | ldi | prn | hlt | mul | push | pop
  deriving DecidableEq, Repr

end Sys2Proof
end

