-- ==== Sys2Proof/WellFormed.lean ====
section
/-! DEFINITION. Which instructions name only registers that exist (30_encoding R45). An ill-formed instruction still decodes and still has its meaning: it raises RegisterIndexOutOfRange. -/

namespace Sys2Proof

/-- A register operand names a register when it is 0 to 7 (30_encoding R45). -/
def regOk (a : Byte) : Bool := decide (a.toNat ≤ 7)

/-- Every register operand names a register; an immediate is always legal (30_encoding R45, R46). -/
def Instr.wellFormed : Instr → Bool
  | .ldi a _ => regOk a
  | .prn a => regOk a
  | .hlt => true
  | .mul a b => regOk a && regOk b
  | .push a => regOk a
  | .pop a => regOk a

end Sys2Proof
end

