-- ==== Sys2Proof/Decode.lean ====
section
/-! DEFINITION. The opcode map, the decoder (total on any bytes, refusing by name) and the encoder, all from 30_encoding R43 to R51. -/

namespace Sys2Proof

/-- The opcode byte of each instruction (30_encoding R47, column "opcode hex"). -/
def Opcode.code : Opcode → Byte
  | .ldi => 0x82#8
  | .prn => 0x47#8
  | .hlt => 0x01#8
  | .mul => 0xA2#8
  | .push => 0x45#8
  | .pop => 0x46#8

/-- The lookup of the dispatcher: equality on the WHOLE opcode byte against the six values
(30_encoding R48, 40_dispatch_loop R58); bit-fields are never used (R49). -/
def decodeOpcode (op : Byte) : Option Opcode :=
  if op = 0x82#8 then some .ldi
  else if op = 0x47#8 then some .prn
  else if op = 0x01#8 then some .hlt
  else if op = 0xA2#8 then some .mul
  else if op = 0x45#8 then some .push
  else if op = 0x46#8 then some .pop
  else none

/-- The width in bytes, by opcode alone (30_encoding R47, R50). -/
def Opcode.width : Opcode → Nat
  | .ldi => 3
  | .prn => 2
  | .hlt => 1
  | .mul => 3
  | .push => 2
  | .pop => 2

/-- The opcode of an instruction. -/
def Instr.opcode : Instr → Opcode
  | .ldi _ _ => .ldi
  | .prn _ => .prn
  | .hlt => .hlt
  | .mul _ _ => .mul
  | .push _ => .push
  | .pop _ => .pop

/-- The width of an instruction: that of its opcode. -/
def Instr.width (i : Instr) : Nat := i.opcode.width

/-- The operand bytes of an opcode, read in order and only as its format needs (30_encoding R44, decision D7).
`read k` is the byte `k` places after the opcode byte, or the error of not having it. -/
def decodeOperands {ε : Type} (read : Nat → Except ε Byte) : Opcode → Except ε Instr
  | .ldi => do
    let a ← read 1
    let imm ← read 2
    .ok (.ldi a imm)
  | .prn => do
    let a ← read 1
    .ok (.prn a)
  | .hlt => .ok .hlt
  | .mul => do
    let a ← read 1
    let b ← read 2
    .ok (.mul a b)
  | .push => do
    let a ← read 1
    .ok (.push a)
  | .pop => do
    let a ← read 1
    .ok (.pop a)

/-- Decoding over any source of bytes, in the order of 40_dispatch_loop R62: the opcode byte, `read 0`, then the
lookup, then the operands. `unknown` names the refusal of an opcode outside the map, for which no operand is
read (40_dispatch_loop R60). -/
def decodeWith {ε : Type} (read : Nat → Except ε Byte) (unknown : Byte → ε) : Except ε Instr := do
  let op ← read 0
  match decodeOpcode op with
  | none => .error (unknown op)
  | some k => decodeOperands read k

/-- Why a list of bytes holds no instruction at its head. -/
inductive DecodeError where
  /-- Byte `k` of the instruction (0 its opcode) is not there. -/
  | missingByte (k : Nat)
  /-- The opcode byte is none of the six (30_encoding R48). -/
  | unknownOpcode (op : Byte)
  deriving DecidableEq, Repr

/-- Byte `k` of a list, or the error that it is missing. -/
def byteAt (bytes : List Byte) (k : Nat) : Except DecodeError Byte :=
  match bytes[k]? with
  | some b => .ok b
  | none => .error (.missingByte k)

/-- The instruction at the head of a list of bytes; what follows its own bytes is not looked at. -/
def decode (bytes : List Byte) : Except DecodeError Instr :=
  decodeWith (byteAt bytes) .unknownOpcode

/-- The operand bytes in ascending order, first operand first (30_encoding R44, 20_memory R33). -/
def Instr.operands : Instr → List Byte
  | .ldi a imm => [a, imm]
  | .prn a => [a]
  | .hlt => []
  | .mul a b => [a, b]
  | .push a => [a]
  | .pop a => [a]

/-- The bytes of an instruction (30_encoding R44). -/
def encode (i : Instr) : List Byte := i.opcode.code :: i.operands

/-- The bytes of a table word: `w` numbered as spec/opcode_table.json numbers it (the first byte is
bits 7..0), `nbits` of it given and every higher bit 0, as many bytes as the longest instruction has. -/
def tableWordBytes (nbits w : Nat) : List Byte :=
  (List.range Config.maxWidth).map fun k => BitVec.ofNat 8 (w % 2 ^ nbits / 2 ^ (8 * k))

/-- The instruction the decoder reads from a table word, if any. -/
def decodeTableWord (nbits w : Nat) : Option Instr :=
  match decode (tableWordBytes nbits w) with
  | .ok i => some i
  | .error _ => none

end Sys2Proof
end

