-- ==== Sys2Proof/Machine/Fetch.lean ====
section
/-! DEFINITION. Fetching: the opcode byte and the operand bytes the format needs, read from memory at the pc (40_dispatch_loop R57, R59, R62). -/

namespace Sys2Proof.Machine

open Sys2Proof

/-- The instruction at the pc, or the first fault met in the order of 60_exceptions R87, places 1 to 4: opcode
fetch, unknown opcode, operand `a`, operand `b`. Reading changes nothing (20_memory R29, R35). -/
def State.fetch (s : State) : Except FaultRecord Instr :=
  decodeWith (fun k => s.memRead (s.pc.toNat + k)) (fun op => .unknownInstruction op s.pc)

/-- The cells from the pc to the end of the address space, in order. -/
def State.cellsFromPc (s : State) : List Byte :=
  (List.range (Config.memSize - s.pc.toNat)).map fun k => s.mem.read (s.pc.toNat + k)

end Sys2Proof.Machine
end

