-- ==== Sys2Proof/Machine/Cycle.lean ====
section
/-! DEFINITION. One cycle, `Step` of 40_dispatch_loop R56: fetch, decode, handler. -/

namespace Sys2Proof.Machine

open Sys2Proof

/-- One cycle from a running state; the operand bytes are read before the handler is called, which by
40_dispatch_loop R59 is the handler's own first part (DEDUCED, safe, assumption log 6). -/
def State.cycle (s : State) : Host.Outcome State Fault Refusal :=
  match s.fetch with
  | .error r => s.raise r
  | .ok i => exec i s

end Sys2Proof.Machine
end

