-- ==== Sys2Proof/Machine/Step.lean ====
section
/-! DEFINITION. The step function: a cycle while RUN is true and FAULT none, no next state otherwise (40_dispatch_loop R55, R63). -/

namespace Sys2Proof.Machine

open Sys2Proof

/-- One step of the machine. A halted or faulted state has no next state (40_dispatch_loop R63). -/
def step (s : State) : Host.Outcome State Fault Refusal :=
  match s.runState with
  | .running => s.cycle
  | .halted => .fault .halted
  | .faulted r => .fault (.faulted r)

/-- `s` with the instruction of a table word stored at the pc, where `step` fetches next. Only memory changes
(it stands for a program load, assumption log 9). -/
def State.withFetchWord (s : State) (nbits w : Nat) : State := s.placeBytes (tableWordBytes nbits w)

end Sys2Proof.Machine
end

