-- ==== Sys2Proof/Machine/Loader.lean ====
section
/-! DEFINITION. The Loader's program text format (30_encoding R53, decision D14). It is host software, outside the core, and no rule of the core depends on it. -/

namespace Sys2Proof.Machine

open Sys2Proof

/-- What one line of a program file is. -/
inductive LoaderLine where
  /-- No base-2 literal: the line consumes no address. -/
  | skip
  /-- One program byte. -/
  | byte (b : Byte)
  /-- Nine or more binary digits: the Loader refuses the file. -/
  | refuse
  deriving DecidableEq, Repr

/-- The lines of a text, ended by line feeds (DESIGN CHOICE, assumption log 12). -/
def splitLines : List Char → List (List Char)
  | [] => [[]]
  | c :: cs =>
    if c = '\n' then [] :: splitLines cs
    else match splitLines cs with
      | [] => [[c]]
      | l :: ls => (c :: l) :: ls

/-- The characters `trimmed` removes (DESIGN CHOICE, assumption log 12). -/
def isBlank (c : Char) : Bool := c = ' ' || c = '\t' || c = '\r'

/-- The text before the first `#`, trimmed at both ends. -/
def lineBody (line : List Char) : List Char :=
  ((((line.takeWhile fun c => c != '#').dropWhile isBlank).reverse).dropWhile isBlank).reverse

/-- The number a string of binary digits stands for, most significant first; none for any other string. -/
def binaryValue (acc : Nat) : List Char → Option Nat
  | [] => some acc
  | c :: cs => if c = '0' then binaryValue (2 * acc) cs else if c = '1' then binaryValue (2 * acc + 1) cs else none

/-- One line of the file (30_encoding R53). -/
def loaderLine (line : List Char) : LoaderLine :=
  let body := lineBody line
  if body = [] then .skip
  else match binaryValue 0 body with
    | none => .skip
    | some n => if body.length ≤ 8 then .byte (BitVec.ofNat 8 n) else .refuse

/-- The dense byte sequence of the lines, or none where the Loader refuses the file. -/
def loaderBytes : List (List Char) → Option (List Byte)
  | [] => some []
  | l :: ls =>
    match loaderLine l, loaderBytes ls with
    | .refuse, _ => none
    | .skip, r => r
    | .byte _, none => none
    | .byte b, some bs => some (b :: bs)

/-- The Loader: program text to bytes (30_encoding R53, 70_reset_and_hazards R100). -/
def loader (text : List Char) : Option (List Byte) := loaderBytes (splitLines text)

end Sys2Proof.Machine
end

