-- ==== Sys2Proof/Machine/HostSide.lean ====
section
/-! DEFINITION. The host's side of the interface (70_reset_and_hazards R97 to R104): program load, the loop of a run, its outcome, the text of the output, and the launch from a program file. -/

namespace Sys2Proof.Machine

open Sys2Proof

/-- `load_program(bytes)` (70_reset_and_hazards R99): refused when the bytes do not fit, else memory only changes.
The interface allows it once, after reset and before the run (R98); `launch` is that use of it. -/
def State.loadProgram (s : State) (bytes : List Byte) : Option State :=
  if bytes.length > Config.memSize then none
  else some { s with mem := s.mem.writeBytes Config.loadBase bytes }

/-- Reset, then load: the state in which a run starts (70_reset_and_hazards R98). -/
def launch (bytes : List Byte) : Option State := State.reset.loadProgram bytes

/-- `Run` (40_dispatch_loop R55) with at most `n` cycles. -/
def runLoop : Nat → State → State
  | 0, s => s
  | n + 1, s =>
    match step s with
    | .next t => runLoop n t
    | .fault _ => s
    | .refused _ => s

/-- The final state of a run; 257 cycles are always enough (40_dispatch_loop R63). -/
def finalState (s : State) : State := runLoop 257 s

/-- The numeric cause code of a fault output; 0 is no fault (60_exceptions R81, decision D8). -/
def causeCode : Option FaultRecord → Nat
  | none => 0
  | some (.unknownInstruction _ _) => 1
  | some (.unsupportedAluOperation _) => 2
  | some (.memoryAddressOutOfRange _ _) => 3
  | some (.registerIndexOutOfRange _ _) => 4

/-- The exit status of an ended run; none while it runs (60_exceptions R90, decision D15). -/
def State.exitStatus (s : State) : Option Nat :=
  match s.runState with
  | .running => none
  | .halted => some 0
  | .faulted _ => some 1

/-- A decimal digit. -/
def decimalDigit (n : Nat) : Char := Char.ofNat (48 + n)

/-- A value 0 to 255 in decimal, without sign, padding or leading zeros (42_output_and_halt R66). -/
def decimal (v : Byte) : List Char :=
  if v.toNat < 10 then [decimalDigit v.toNat]
  else if v.toNat < 100 then [decimalDigit (v.toNat / 10), decimalDigit (v.toNat % 10)]
  else [decimalDigit (v.toNat / 100), decimalDigit (v.toNat / 10 % 10), decimalDigit (v.toNat % 10)]

/-- `render(v)` (42_output_and_halt R66). -/
def render (v : Byte) : List Char := ['P', 'R', 'N', ':', ' '] ++ decimal v

/-- The console text of a state: each value rendered and followed by the separator `sep`, the OPEN parameter
OUT_SEP (Config.outSep by default). -/
def State.consoleText (sep : List Char) (s : State) : List Char := s.out.flatMap fun v => render v ++ sep

/-- What a launch from the command line comes to (70_reset_and_hazards R103). -/
inductive LaunchResult where
  /-- No path: a usage message and no run. -/
  | usage
  /-- The Loader refused the file, or the bytes do not fit: no run. -/
  | refused
  /-- A run, with its final state. -/
  | ran (final : State)
  deriving DecidableEq, Repr

/-- The command-line surface (70_reset_and_hazards R103): the text of the program file, if a path was given. -/
def commandLine : Option (List Char) → LaunchResult
  | none => .usage
  | some text =>
    match (loader text).bind launch with
    | none => .refused
    | some s => .ran (finalState s)

/-- The exit status of a launch: 1 without a path (decision D24), that of the ended run, none for a refused
load, where the spec gives no status. -/
def LaunchResult.exitStatus : LaunchResult → Option Nat
  | .usage => some 1
  | .refused => none
  | .ran s => s.exitStatus

end Sys2Proof.Machine
end

