-- ==== Sys2Proof/Machine/Trace.lean ====
section
/-! DEFINITION. The optional Trace/Debug Facility (60_exceptions R95): a read-only view of the state, never called by the step. -/

namespace Sys2Proof.Machine

open Sys2Proof

/-- What the view shows: the pc, three cells (absent above address 255) and the eight registers. -/
structure TraceView where
  pc : Pc
  cells : List (Option Byte)
  regs : Vector Byte 8
  deriving DecidableEq, Repr

/-- A cell as the view shows it: absent above address 255, never a fault (decision D13). -/
def State.cellView (s : State) (a : Nat) : Option Byte :=
  if a > 255 then none else some (s.mem.read a)

/-- `Trace(state)` of 60_exceptions R95. -/
def State.traceView (s : State) : TraceView :=
  { pc := s.pc
    cells := [s.cellView s.pc.toNat, s.cellView (s.pc.toNat + 1), s.cellView (s.pc.toNat + 2)]
    regs := s.x }

/-- The view under the OPEN parameter TRACE: there is one only where the facility is present. -/
def State.traceIf (present : Bool) (s : State) : Option TraceView :=
  if present then some s.traceView else none

/-- An upper-case hexadecimal digit. -/
def hexDigit (n : Nat) : Char := if n < 10 then Char.ofNat (48 + n) else Char.ofNat (55 + n)

/-- Two upper-case hexadecimal digits. -/
def hexByte (b : Byte) : List Char := [hexDigit (b.toNat / 16), hexDigit (b.toNat % 16)]

/-- The pc as two or more hexadecimal digits: three above 255, else two, in upper case (DESIGN CHOICE, assumption log
11: R95 and D13 give no letter case for the pc's digits and no exact count). -/
def hexPc (pc : Pc) : List Char :=
  (if pc.toNat < 256 then [] else [hexDigit (pc.toNat / 256)]) ++ hexByte (narrow pc.toNat)

/-- A cell of the view; an absent one is two hyphens (DESIGN CHOICE, assumption log 11). -/
def hexCell : Option Byte → List Char
  | some b => hexByte b
  | none => ['-', '-']

/-- The trace line of decision D13: pc, three cells, eight registers, separated by single spaces. -/
def TraceView.text (v : TraceView) : List Char :=
  hexPc v.pc ++ (v.cells.map hexCell ++ v.regs.toList.map hexByte).flatMap fun w => ' ' :: w

end Sys2Proof.Machine
end

