-- ==== Sys2Proof/Safety.lean ====
section
/-! DEFINITION. What counts as a safe run: the terms in which claims speak of a state (running, the bytes at the pc), and the invariant of the reachable states. -/

namespace Sys2Proof.Machine

open Sys2Proof

/-- A cycle happens: RUN is true and FAULT none (40_dispatch_loop R55). -/
abbrev State.running (s : State) : Prop := s.run = true ∧ s.fault = none

/-- The one successful end: halted with no fault (93_implementation_defined U10, 60_exceptions R89). -/
abbrev State.succeeded (s : State) : Prop := s.run = false ∧ s.fault = none

/-- The cell at the pc. -/
def State.opcodeByte (s : State) : Byte := s.mem.read s.pc.toNat

/-- The cell after it, the first operand of a format that has one. -/
def State.byteA (s : State) : Byte := s.mem.read (s.pc.toNat + 1)

/-- The cell after that, the second operand of a format that has one. -/
def State.byteB (s : State) : Byte := s.mem.read (s.pc.toNat + 2)

/-- The six opcode bytes of 30_encoding R47, in the table's order. -/
def tableOpcodes : List Byte := [0x82#8, 0x47#8, 0x01#8, 0xA2#8, 0x45#8, 0x46#8]

/-- The opcode bytes with a first operand (30_encoding R44). -/
def opcodesWithA : List Byte := [0x82#8, 0x47#8, 0xA2#8, 0x45#8, 0x46#8]

/-- The opcode bytes with a second operand (30_encoding R44). -/
def opcodesWithB : List Byte := [0x82#8, 0xA2#8]

/-- The width the table gives an opcode byte; an unknown byte is one byte read (30_encoding R47, 40_dispatch_loop R60). -/
def tableWidth (op : Byte) : Nat :=
  if op ∈ opcodesWithB then 3 else if op ∈ opcodesWithA then 2 else 1

/-- The pc a record holds. -/
def FaultRecord.pc : FaultRecord → Pc
  | .unknownInstruction _ pc => pc
  | .unsupportedAluOperation pc => pc
  | .memoryAddressOutOfRange _ pc => pc
  | .registerIndexOutOfRange _ pc => pc

/-- The record is one that the instruction at the pc of `s` can have raised: the ranges of 60_exceptions R81
and the cases of R82, R83, R84 and R85. -/
def FaultRecord.fits (s : State) : FaultRecord → Prop
  | .unknownInstruction op pc =>
    pc = s.pc ∧ pc.toNat ≤ 255 ∧ op = s.opcodeByte ∧ op ∉ tableOpcodes
  | .unsupportedAluOperation _ => False
  | .memoryAddressOutOfRange address pc =>
    pc = s.pc ∧ address = 256 ∧
      (pc.toNat = 256 ∨ (pc.toNat = 255 ∧ s.opcodeByte ∈ opcodesWithA) ∨
        (pc.toNat = 254 ∧ s.opcodeByte ∈ opcodesWithB))
  | .registerIndexOutOfRange index pc =>
    pc = s.pc ∧ pc.toNat ≤ 254 ∧ 7 < index.toNat ∧
      ((s.opcodeByte ∈ opcodesWithA ∧ index = s.byteA) ∨
        (s.opcodeByte = 0xA2#8 ∧ s.byteA.toNat ≤ 7 ∧ index = s.byteB))

/-- The invariant of the reachable states. -/
structure State.Inv (s : State) : Prop where
  /-- Memory is in its canonical form, within 0 to 255. -/
  memory : s.mem.wf
  /-- The pc holds 0 to 256 (10_state R16). -/
  pcRange : s.pc.toNat ≤ 256
  /-- In a faulted state RUN is true (10_state R19) and the record fits the instruction at the pc. -/
  faulted : ∀ r, s.fault = some r → s.run = true ∧ r.fits s
  /-- In a halted state the pc is one past a HLT (40_dispatch_loop R63). -/
  halted : s.run = false → 1 ≤ s.pc.toNat ∧ s.mem.read (s.pc.toNat - 1) = 0x01#8

/-- The meanings of several instructions one after another, for laws about two or more of them; nothing is fetched. -/
def execSeq : List Instr → State → Host.Outcome State Fault Refusal
  | [], s => .next s
  | i :: is, s =>
    match exec i s with
    | .next t => execSeq is t
    | .fault r => .fault r
    | .refused r => .refused r

end Sys2Proof.Machine
end

