-- ==== Sys2Proof/Certificates/Slice0/Obligations.lean ====
section
/-! DEFINITION. The statements for the provers, from the numbered rules of spec/. -/

open Sys2Proof Sys2Proof.Machine

/-! ### Encoding -/

/-- Words written out from 30_encoding R44 and R47 decode to the instructions they stand for. -/
def Obligations.WrittenOutWordsDecode : Prop :=
  decode [0x82#8, 0x00#8, 0x08#8] = .ok (.ldi 0 8) ∧
  decode [0x47#8, 0x03#8] = .ok (.prn 3) ∧
  decode [0x01#8] = .ok .hlt ∧
  decode [0xA2#8, 0x06#8, 0x01#8] = .ok (.mul 6 1) ∧
  decode [0x45#8, 0x07#8] = .ok (.push 7) ∧
  decode [0x46#8, 0xC8#8] = .ok (.pop 0xC8#8)

/-- 30_encoding R48: the whole opcode byte is matched against the six values of R47, each of which selects its
instruction; exactly the other 250 bytes are unknown, whatever follows them. -/
def Obligations.OpcodesOutsideTheTableAreUnknown : Prop :=
  (∀ (op : Byte) (rest : List Byte),
    decode (op :: rest) = .error (.unknownOpcode op) ↔
      ¬ (op = 0x82#8 ∨ op = 0x47#8 ∨ op = 0x01#8 ∨ op = 0xA2#8 ∨ op = 0x45#8 ∨ op = 0x46#8)) ∧
  ((List.range 256).filter fun n => (decodeOpcode (BitVec.ofNat 8 n)).isNone).length = 250 ∧
  decodeOpcode 0x82#8 = some .ldi ∧ decodeOpcode 0x47#8 = some .prn ∧ decodeOpcode 0x01#8 = some .hlt ∧
  decodeOpcode 0xA2#8 = some .mul ∧ decodeOpcode 0x45#8 = some .push ∧ decodeOpcode 0x46#8 = some .pop

/-- Decoding and encoding agree in both directions (30_encoding R44, R47): a list of bytes decodes to an
instruction exactly when it begins with that instruction's bytes, for every operand value. -/
def Obligations.DecodesExactlyTheEncodedPrefix : Prop :=
  ∀ (bytes : List Byte) (i : Instr), decode bytes = .ok i ↔ encode i <+: bytes

/-! ### The step -/

/-- When memory holds an instruction's bytes at the pc of a running state, the step is exec of it
(40_dispatch_loop R56 to R59). The model's step adds nothing around exec: exec itself advances the pc. -/
def Obligations.StepRunsTheEncodedInstruction : Prop :=
  ∀ (s : State) (i : Instr), s.running → s.pc.toNat + i.width ≤ 256 →
    (∀ k, k < i.width → s.mem.read (s.pc.toNat + k) = (encode i).getD k 0) →
    step s = exec i s

/-- The step of a running state in terms of the decoder over the cells from the pc to the end of memory:
exec of what decodes, else the fault of an unknown opcode or of the missing byte's address
(40_dispatch_loop R56, R57, R60; 20_memory R31). -/
def Obligations.StepIsDecodeThenExec : Prop :=
  ∀ s : State, s.running →
    match decode s.cellsFromPc with
    | .ok i => step s = exec i s
    | .error (.unknownOpcode op) =>
      step s = .next { s with fault := some (.unknownInstruction op s.pc) }
    | .error (.missingByte k) =>
      step s = .next { s with fault := some (.memoryAddressOutOfRange (s.pc.toNat + k) s.pc) }

/-- 40_dispatch_loop R55, R56, R63: a step answers a next state exactly in a running state. -/
def Obligations.NextStateExactlyWhenRunning : Prop :=
  ∀ s : State, (∃ t, step s = .next t) ↔ s.run = true ∧ s.fault = none

/-- 40_dispatch_loop R63: "A halted or faulted state has no next state"; the stop names which of the two it
is, a recorded fault first (10_state R19). The two names are the model's (assumption log 1). -/
def Obligations.EndedStatesStop : Prop :=
  (∀ (s : State) (r : FaultRecord), s.fault = some r → step s = .fault (.faulted r)) ∧
  (∀ s : State, s.run = false → s.fault = none → step s = .fault .halted)

/-- 40_dispatch_loop R60, 60_exceptions R82: an opcode byte outside the table latches UnknownInstruction with the byte
and the pc, nothing else changes, and no further instruction executes. -/
def Obligations.UnknownOpcodeLatches : Prop :=
  ∀ s : State, s.running → s.pc.toNat ≤ 255 →
    s.opcodeByte ∉ ([0x01#8, 0x45#8, 0x46#8, 0x47#8, 0x82#8, 0xA2#8] : List Byte) →
    ∃ t, step s = .next t ∧ t = { s with fault := some (.unknownInstruction s.opcodeByte s.pc) } ∧
      ∀ u, step t ≠ .next u

/-- 60_exceptions R84: the reachable MemoryAddressOutOfRange faults are exactly the three rows of its table, and the
record is always address 256 with the pc of the instruction. That 257 is never recorded is the spec's own inference
(R84, "so 257 is never requested and never recorded", marked derived there). -/
def Obligations.MemoryFaultsAreTheThreeCases : Prop :=
  ∀ s t : State, s.pc.toNat ≤ 256 → step s = .next t →
    ((∃ address pc, t.fault = some (.memoryAddressOutOfRange address pc)) ↔
      (s.pc.toNat = 256 ∨
        (s.pc.toNat = 255 ∧ s.opcodeByte ∈ ([0x82#8, 0x47#8, 0xA2#8, 0x45#8, 0x46#8] : List Byte)) ∨
        (s.pc.toNat = 254 ∧ s.opcodeByte ∈ ([0x82#8, 0xA2#8] : List Byte)))) ∧
    (∀ address pc, t.fault = some (.memoryAddressOutOfRange address pc) →
      address = 256 ∧ pc = s.pc ∧ t.mem = s.mem)

/-- 60_exceptions R87: the record a step latches is the first that applies, in the fixed order; and at most one is
recorded per run, for no next state follows a latched record. -/
def Obligations.FirstFaultInPriorityOrder : Prop :=
  ∀ s : State, s.running → s.pc.toNat ≤ 256 →
    ∃ t, step s = .next t ∧ t.fault =
      (if s.pc.toNat = 256 then some (.memoryAddressOutOfRange 256 s.pc)
      else if s.opcodeByte ∉ tableOpcodes then some (.unknownInstruction s.opcodeByte s.pc)
      else if s.opcodeByte ∈ opcodesWithA ∧ s.pc.toNat = 255 then some (.memoryAddressOutOfRange 256 s.pc)
      else if s.opcodeByte ∈ opcodesWithB ∧ s.pc.toNat = 254 then some (.memoryAddressOutOfRange 256 s.pc)
      else if s.opcodeByte ∈ opcodesWithA ∧ 7 < s.byteA.toNat then some (.registerIndexOutOfRange s.byteA s.pc)
      else if s.opcodeByte = 0xA2#8 ∧ 7 < s.byteB.toNat then some (.registerIndexOutOfRange s.byteB s.pc)
      else none) ∧
      (t.fault ≠ none → ∀ u, step t ≠ .next u)

/-- 60_exceptions R88: `raise` writes FAULT and nothing else; in every cycle that ends with a fault M, x, pc, RUN and
OUT have the values of its start, and no cycle follows. That the step after it answers the stop named `faulted` is the
model's way to show that no cycle follows (assumption log 1). -/
def Obligations.FaultsArePrecise : Prop :=
  (∀ (s : State) (r : FaultRecord), s.raise r = .next { s with fault := some r }) ∧
  (∀ (s t : State) (r : FaultRecord), step s = .next t → t.fault = some r →
    t.mem = s.mem ∧ t.x = s.x ∧ t.pc = s.pc ∧ t.run = s.run ∧ t.out = s.out ∧
      step t = .fault (.faulted r))

/-! ### The access primitives -/

/-- 20_memory R29. (A read answers a value or a fault and no state: it changes nothing.) -/
def Obligations.MemReadContract : Prop :=
  ∀ (s : State) (a : Nat),
    s.memRead a = if 255 < a then .error (.memoryAddressOutOfRange a s.pc) else .ok (s.mem.read a)

/-- 20_memory R30, the primitive: the low 8 bits go to the one cell, or an address above 255 faults. -/
def Obligations.MemWriteContract : Prop :=
  ∀ (s : State) (a v : Nat),
    (255 < a → s.memWrite a v = .error (.memoryAddressOutOfRange a s.pc)) ∧
    (a ≤ 255 → ∃ t, s.memWrite a v = .ok t ∧ (t.mem.read a).toNat = v % 256 ∧
      (∀ b, b ≠ a → t.mem.read b = s.mem.read b) ∧
      t.x = s.x ∧ t.pc = s.pc ∧ t.run = s.run ∧ t.fault = s.fault ∧ t.out = s.out)

/-- 10_state R12: the byte is the index as it stands, never masked. -/
def Obligations.RegisterReadContract : Prop :=
  ∀ (s : State) (i : Byte),
    (7 < i.toNat → readReg s i = .error (.registerIndexOutOfRange i s.pc)) ∧
    (∀ r : RegIndex, i.toNat = r.val → readReg s i = .ok (s.reg r))

/-- 10_state R13: a register write keeps the low 8 bits, changes that register only, or faults. -/
def Obligations.RegisterWriteContract : Prop :=
  ∀ (s : State) (i : Byte) (v : Nat),
    (7 < i.toNat → writeReg s i v = .error (.registerIndexOutOfRange i s.pc)) ∧
    (∀ r : RegIndex, i.toNat = r.val → ∃ t, writeReg s i v = .ok t ∧ (t.reg r).toNat = v % 256 ∧
      (∀ j, j ≠ r → t.reg j = s.reg j) ∧
      t.mem = s.mem ∧ t.pc = s.pc ∧ t.run = s.run ∧ t.fault = s.fault ∧ t.out = s.out)

/-! ### The Arithmetic Unit -/

/-- 43_alu R69: ADD, for every pair of registers, the same one twice included. -/
def Obligations.AluAddsModulo256 : Prop :=
  ∀ (s : State) (a b : RegIndex), ∃ t, alu .add a b s = .ok t ∧
    (t.reg a).toNat = ((s.reg a).toNat + (s.reg b).toNat) % 256 ∧
    (∀ j, j ≠ a → t.reg j = s.reg j) ∧
    t.mem = s.mem ∧ t.pc = s.pc ∧ t.run = s.run ∧ t.fault = s.fault ∧ t.out = s.out

/-- 43_alu R70: MUL, for every pair of registers, the same one twice included; and the property R70 quotes, for every
two values, at the level of the meanings (nothing is fetched). -/
def Obligations.AluMultipliesModulo256 : Prop :=
  (∀ (s : State) (a b : RegIndex), ∃ t, alu .mul a b s = .ok t ∧
    (t.reg a).toNat = ((s.reg a).toNat * (s.reg b).toNat) % 256 ∧
    (∀ j, j ≠ a → t.reg j = s.reg j) ∧
    t.mem = s.mem ∧ t.pc = s.pc ∧ t.run = s.run ∧ t.fault = s.fault ∧ t.out = s.out) ∧
  (∀ (s : State) (a b : Byte), ∃ (t : State) (v : Byte),
    execSeq [.ldi 0 a, .ldi 1 b, .mul 0 1, .prn 0] s = .next t ∧
    t.out = s.out ++ [v] ∧ v.toNat = (a.toNat * b.toNat) % 256)

/-- 43_alu R71, 60_exceptions R83: any other operation is the defensive fault, and no step ever latches it. The second
clause is the spec's own inference (R71, "never happens in any run", marked derived there). -/
def Obligations.UnsupportedAluOperationIsDefensive : Prop :=
  (∀ (s : State) (a b : RegIndex), alu .other a b s = .error (.unsupportedAluOperation s.pc)) ∧
  (∀ (s t : State) (pc : Pc), step s = .next t → t.fault ≠ some (.unsupportedAluOperation pc))

/-! ### Each instruction: where it completes, its result and its frame -/

/-- LDI completes on every register, with its result and frame (41_load_immediate R64). -/
def Obligations.LdiCompletes : Prop :=
  ∀ (s : State) (a imm : Byte) (r : RegIndex), a.toNat = r.val →
    ∃ t, exec (.ldi a imm) s = .next t ∧
      t.reg r = imm ∧ (∀ j, j ≠ r → t.reg j = s.reg j) ∧
      t.pc = s.pc + 3 ∧ (∀ k, t.mem.read k = s.mem.read k) ∧ t.mem = s.mem ∧
      t.run = s.run ∧ t.fault = s.fault ∧ t.out = s.out

/-- PRN completes on every register, register 7 included (42_output_and_halt R65). -/
def Obligations.PrnCompletes : Prop :=
  ∀ (s : State) (a : Byte) (r : RegIndex), a.toNat = r.val →
    ∃ t, exec (.prn a) s = .next t ∧
      t.out = s.out ++ [s.reg r] ∧ (∀ j, t.reg j = s.reg j) ∧
      t.pc = s.pc + 2 ∧ (∀ k, t.mem.read k = s.mem.read k) ∧ t.mem = s.mem ∧
      t.run = s.run ∧ t.fault = s.fault

/-- HLT completes in every state (42_output_and_halt R67: "once fetched it always completes"). -/
def Obligations.HltCompletes : Prop :=
  ∀ s : State, ∃ t, exec .hlt s = .next t ∧
    t.run = false ∧ t.pc = s.pc + 1 ∧ (∀ j, t.reg j = s.reg j) ∧
    (∀ k, t.mem.read k = s.mem.read k) ∧ t.mem = s.mem ∧ t.fault = s.fault ∧ t.out = s.out

/-- MUL completes on every pair of registers, the same one twice and register 7 included (43_alu R73). -/
def Obligations.MulCompletes : Prop :=
  ∀ (s : State) (a b : Byte) (ra rb : RegIndex), a.toNat = ra.val → b.toNat = rb.val →
    ∃ t, exec (.mul a b) s = .next t ∧
      (t.reg ra).toNat = ((s.reg ra).toNat * (s.reg rb).toNat) % 256 ∧
      (∀ j, j ≠ ra → t.reg j = s.reg j) ∧
      t.pc = s.pc + 3 ∧ (∀ k, t.mem.read k = s.mem.read k) ∧ t.mem = s.mem ∧
      t.run = s.run ∧ t.fault = s.fault ∧ t.out = s.out

/-- PUSH completes on every register and with every stack pointer (44_stack R76, R78, R79): the pointer is
decremented with wrap, and the cell it then addresses holds the register's value as read after the decrement. -/
def Obligations.PushCompletes : Prop :=
  ∀ (s : State) (a : Byte) (r : RegIndex), a.toNat = r.val →
    ∃ t, exec (.push a) s = .next t ∧
      t.sp.toNat = (s.sp.toNat + 255) % 256 ∧
      (∀ j, j ≠ 7 → t.reg j = s.reg j) ∧
      t.mem.read ((s.sp.toNat + 255) % 256) = (if r = 7 then t.sp else s.reg r) ∧
      (∀ k, k ≠ (s.sp.toNat + 255) % 256 → t.mem.read k = s.mem.read k) ∧
      t.pc = s.pc + 2 ∧ t.run = s.run ∧ t.fault = s.fault ∧ t.out = s.out

/-- POP completes on every register and with every stack pointer (44_stack R77, R78, R79): the cell at the old
pointer goes to the register, then register 7 is incremented with wrap. -/
def Obligations.PopCompletes : Prop :=
  ∀ (s : State) (a : Byte) (r : RegIndex), a.toNat = r.val →
    ∃ t, exec (.pop a) s = .next t ∧
      (r ≠ 7 → t.reg r = s.mem.read s.sp.toNat ∧ t.sp.toNat = (s.sp.toNat + 1) % 256) ∧
      (r = 7 → t.sp.toNat = ((s.mem.read s.sp.toNat).toNat + 1) % 256) ∧
      (∀ j, j ≠ r → j ≠ 7 → t.reg j = s.reg j) ∧
      t.pc = s.pc + 2 ∧ (∀ k, t.mem.read k = s.mem.read k) ∧ t.mem = s.mem ∧
      t.run = s.run ∧ t.fault = s.fault ∧ t.out = s.out

/-- 60_exceptions R85: who raises RegisterIndexOutOfRange, on which byte, with which record; and with register operands
of 0 to 7 no instruction does, HLT and the implicit register 7 included. -/
def Obligations.RegisterIndexFaults : Prop :=
  (∀ (s : State) (a imm : Byte), 7 < a.toNat →
    exec (.ldi a imm) s = .next { s with fault := some (.registerIndexOutOfRange a s.pc) } ∧
    exec (.prn a) s = .next { s with fault := some (.registerIndexOutOfRange a s.pc) } ∧
    exec (.push a) s = .next { s with fault := some (.registerIndexOutOfRange a s.pc) } ∧
    exec (.pop a) s = .next { s with fault := some (.registerIndexOutOfRange a s.pc) } ∧
    (∀ b, exec (.mul a b) s = .next { s with fault := some (.registerIndexOutOfRange a s.pc) })) ∧
  (∀ (s : State) (a b : Byte), a.toNat ≤ 7 → 7 < b.toNat →
    exec (.mul a b) s = .next { s with fault := some (.registerIndexOutOfRange b s.pc) }) ∧
  (∀ (s : State) (i : Instr), i.wellFormed = true → ∃ t, exec i s = .next t ∧ t.fault = s.fault)

/-! ### Each instruction's rule, whole, at the level of the step -/

/-- 41_load_immediate R64: faults in order, effect and frame of LDI. -/
def Obligations.LdiStep : Prop :=
  ∀ s : State, s.running → s.pc.toNat ≤ 255 → s.opcodeByte = 0x82#8 →
    ∃ t, step s = .next t ∧
      if 254 ≤ s.pc.toNat then t = { s with fault := some (.memoryAddressOutOfRange 256 s.pc) }
      else if 7 < s.byteA.toNat then t = { s with fault := some (.registerIndexOutOfRange s.byteA s.pc) }
      else
        (∀ j : RegIndex, t.reg j = if j.val = s.byteA.toNat then s.byteB else s.reg j) ∧
        t.pc.toNat = s.pc.toNat + 3 ∧ t.mem = s.mem ∧ t.run = true ∧ t.fault = none ∧ t.out = s.out

/-- 42_output_and_halt R65: faults in order, effect and frame of PRN. -/
def Obligations.PrnStep : Prop :=
  ∀ s : State, s.running → s.pc.toNat ≤ 255 → s.opcodeByte = 0x47#8 →
    ∃ t, step s = .next t ∧
      if s.pc.toNat = 255 then t = { s with fault := some (.memoryAddressOutOfRange 256 s.pc) }
      else if 7 < s.byteA.toNat then t = { s with fault := some (.registerIndexOutOfRange s.byteA s.pc) }
      else
        (∀ j : RegIndex, j.val = s.byteA.toNat → t.out = s.out ++ [s.reg j]) ∧
        t.pc.toNat = s.pc.toNat + 2 ∧ t.x = s.x ∧ t.mem = s.mem ∧ t.run = true ∧ t.fault = none

/-- 42_output_and_halt R67: HLT clears RUN, advances the pc by 1 and never faults, at address 255 too, and no further
cycle occurs. That the step after it answers the stop named `halted` is the model's way to show the last (assumption
log 1). -/
def Obligations.HltStep : Prop :=
  ∀ s : State, s.running → s.pc.toNat ≤ 255 → s.opcodeByte = 0x01#8 →
    ∃ t, step s = .next t ∧ t.run = false ∧ t.pc.toNat = s.pc.toNat + 1 ∧
      t.x = s.x ∧ t.mem = s.mem ∧ t.fault = none ∧ t.out = s.out ∧ step t = .fault .halted

/-- 43_alu R73: faults in order, effect and frame of MUL. -/
def Obligations.MulStep : Prop :=
  ∀ s : State, s.running → s.pc.toNat ≤ 255 → s.opcodeByte = 0xA2#8 →
    ∃ t, step s = .next t ∧
      if 254 ≤ s.pc.toNat then t = { s with fault := some (.memoryAddressOutOfRange 256 s.pc) }
      else if 7 < s.byteA.toNat then t = { s with fault := some (.registerIndexOutOfRange s.byteA s.pc) }
      else if 7 < s.byteB.toNat then t = { s with fault := some (.registerIndexOutOfRange s.byteB s.pc) }
      else
        (∀ ra rb : RegIndex, ra.val = s.byteA.toNat → rb.val = s.byteB.toNat →
          (t.reg ra).toNat = ((s.reg ra).toNat * (s.reg rb).toNat) % 256 ∧
          (∀ j, j ≠ ra → t.reg j = s.reg j)) ∧
        t.pc.toNat = s.pc.toNat + 3 ∧ t.mem = s.mem ∧ t.run = true ∧ t.fault = none ∧ t.out = s.out

/-- 44_stack R76: faults in order, effect and frame of PUSH. -/
def Obligations.PushStep : Prop :=
  ∀ s : State, s.running → s.pc.toNat ≤ 255 → s.opcodeByte = 0x45#8 →
    ∃ t, step s = .next t ∧
      if s.pc.toNat = 255 then t = { s with fault := some (.memoryAddressOutOfRange 256 s.pc) }
      else if 7 < s.byteA.toNat then t = { s with fault := some (.registerIndexOutOfRange s.byteA s.pc) }
      else
        t.sp.toNat = (s.sp.toNat + 255) % 256 ∧ (∀ j, j ≠ 7 → t.reg j = s.reg j) ∧
        (∀ j : RegIndex, j.val = s.byteA.toNat → t.mem.read ((s.sp.toNat + 255) % 256) = t.reg j) ∧
        (∀ k, k ≠ (s.sp.toNat + 255) % 256 → t.mem.read k = s.mem.read k) ∧
        t.pc.toNat = s.pc.toNat + 2 ∧ t.run = true ∧ t.fault = none ∧ t.out = s.out

/-- 44_stack R77: faults in order, effect and frame of POP. -/
def Obligations.PopStep : Prop :=
  ∀ s : State, s.running → s.pc.toNat ≤ 255 → s.opcodeByte = 0x46#8 →
    ∃ t, step s = .next t ∧
      if s.pc.toNat = 255 then t = { s with fault := some (.memoryAddressOutOfRange 256 s.pc) }
      else if 7 < s.byteA.toNat then t = { s with fault := some (.registerIndexOutOfRange s.byteA s.pc) }
      else
        (s.byteA.toNat = 7 → t.sp.toNat = ((s.mem.read s.sp.toNat).toNat + 1) % 256) ∧
        (s.byteA.toNat ≠ 7 → t.sp.toNat = (s.sp.toNat + 1) % 256) ∧
        (∀ j : RegIndex, j ≠ 7 →
          t.reg j = if j.val = s.byteA.toNat then s.mem.read s.sp.toNat else s.reg j) ∧
        t.pc.toNat = s.pc.toNat + 2 ∧ t.mem = s.mem ∧ t.run = true ∧ t.fault = none ∧ t.out = s.out

/-! ### Laws of two or more instructions -/

/-- Loading a value and printing it emits exactly that value, for every value and every register, the stack
pointer included (30_encoding R46). -/
def Obligations.LdiThenPrnEmits : Prop :=
  ∀ (s : State) (a imm : Byte), a.toNat ≤ 7 →
    ∃ t, execSeq [.ldi a imm, .prn a] s = .next t ∧ t.out = s.out ++ [imm] ∧ t.pc = s.pc + 5

/-- A push and a pop into a register restore the pointer and carry the value, for registers 0 to 6
(44_stack R77, 90_conflicts C5). -/
def Obligations.PushThenPopCarries : Prop :=
  ∀ (s : State) (a b : Byte) (ra rb : RegIndex), a.toNat = ra.val → b.toNat = rb.val → ra ≠ 7 → rb ≠ 7 →
    ∃ t, execSeq [.push a, .pop b] s = .next t ∧
      t.reg rb = s.reg ra ∧ t.sp = s.sp ∧ (∀ j, j ≠ rb → t.reg j = s.reg j) ∧
      t.mem.read ((s.sp.toNat + 255) % 256) = s.reg ra

/-- 44_stack R79 (c), (d), (e): with register 7 as the operand the round trip gives the decremented pointer, or
leaves the pointer one above the popped value. -/
def Obligations.RegisterSevenOnTheStack : Prop :=
  (∀ (s : State) (b : Byte) (rb : RegIndex), b.toNat = rb.val → rb ≠ 7 →
    ∃ t, execSeq [.push 7, .pop b] s = .next t ∧
      (t.reg rb).toNat = (s.sp.toNat + 255) % 256 ∧ t.sp = s.sp) ∧
  (∀ (s : State) (a : Byte) (ra : RegIndex), a.toNat = ra.val → ra ≠ 7 →
    ∃ t, execSeq [.push a, .pop 7] s = .next t ∧ t.sp.toNat = ((s.reg ra).toNat + 1) % 256)

/-- 44_stack R75, R78: pushes one after another take the pointer down by their number, modulo 256, from any
pointer; no number of them faults. -/
def Obligations.PushesLowerThePointer : Prop :=
  ∀ (s : State) (regs : List Byte), (∀ a ∈ regs, a.toNat ≤ 7) →
    ∃ t, execSeq (regs.map .push) s = .next t ∧
      t.sp.toNat = (s.sp.toNat + 255 * regs.length) % 256 ∧ t.fault = s.fault

/-- 20_memory R41, a rule the spec marks as its own inference ("this rule follows from its statements"): a PUSH that stores into the cell of the next opcode changes the instruction that is then
fetched; when it stores the HLT opcode, the next step halts. -/
def Obligations.StoreIsSeenByTheNextFetch : Prop :=
  ∀ (s : State) (r : RegIndex), s.running → s.opcodeByte = 0x45#8 → s.byteA.toNat = r.val → r ≠ 7 →
    (s.sp.toNat + 255) % 256 = s.pc.toNat + 2 →
    ∃ t, step s = .next t ∧ t.opcodeByte = s.reg r ∧
      (s.reg r = 0x01#8 → ∃ u, step t = .next u ∧ u.run = false ∧ u.fault = none)

/-! ### Who writes what, over all instructions -/

/-- 10_state R17: the pc moves by the width of the instruction executed, stays at a fault, and resets to 0. -/
def Obligations.PcAdvancesByTheWidth : Prop :=
  State.reset.pc = 0 ∧
  ∀ s t : State, step s = .next t →
    (t.fault = none → t.pc.toNat = s.pc.toNat +
      (if s.opcodeByte = 0x01#8 then 1
        else if s.opcodeByte = 0x47#8 ∨ s.opcodeByte = 0x45#8 ∨ s.opcodeByte = 0x46#8 then 2 else 3)) ∧
    (t.fault ≠ none → t.pc = s.pc)

/-- 10_state R18: RUN starts true and only HLT clears it; a fault does not change it. -/
def Obligations.OnlyHltClearsRun : Prop :=
  State.reset.run = true ∧
  ∀ s t : State, step s = .next t →
    (t.run = false ↔ s.pc.toNat ≤ 255 ∧ s.opcodeByte = 0x01#8) ∧ (t.fault ≠ none → t.run = true)

/-- 10_state R20: OUT is empty at reset, PRN appends one value, nothing else writes it. -/
def Obligations.OnlyPrnWritesOut : Prop :=
  State.reset.out = [] ∧
  ∀ s t : State, step s = .next t →
    (t.fault = none ∧ s.opcodeByte = 0x47#8 →
      ∃ r : RegIndex, r.val = s.byteA.toNat ∧ t.out = s.out ++ [s.reg r]) ∧
    (¬ (t.fault = none ∧ s.opcodeByte = 0x47#8) → t.out = s.out)

/-- 20_memory R32: the only cell a step can change is the one below the stack pointer, and only by PUSH. -/
def Obligations.OnlyPushStores : Prop :=
  ∀ s t : State, step s = .next t →
    (s.opcodeByte ≠ 0x45#8 → t.mem = s.mem) ∧
    (∀ k, k ≠ (s.sp.toNat + 255) % 256 → t.mem.read k = s.mem.read k)

/-- 10_state R14, a table the spec marks as derived, column "registers written": no step writes another register than
its row names. -/
def Obligations.RegistersWrittenByEachRow : Prop :=
  ∀ (s t : State) (j : RegIndex), step s = .next t → t.reg j ≠ s.reg j →
    (s.opcodeByte = 0x82#8 ∧ j.val = s.byteA.toNat) ∨
    (s.opcodeByte = 0xA2#8 ∧ j.val = s.byteA.toNat) ∨
    (s.opcodeByte = 0x45#8 ∧ j = 7) ∨
    (s.opcodeByte = 0x46#8 ∧ (j.val = s.byteA.toNat ∨ j = 7))

/-- 20_memory R32, 30_encoding R44: a step depends on no other memory than the bytes of its own instruction and,
for POP, the cell at the stack pointer: two running states that differ elsewhere in memory step alike. -/
def Obligations.StepReadsOnlyItsOwnCells : Prop :=
  ∀ (s : State) (m : Memory), s.running →
    (∀ k, k < tableWidth s.opcodeByte → m.read (s.pc.toNat + k) = s.mem.read (s.pc.toNat + k)) →
    (s.opcodeByte = 0x46#8 → m.read s.sp.toNat = s.mem.read s.sp.toNat) →
    ∃ t u, step s = .next t ∧ step { s with mem := m } = .next u ∧
      u.x = t.x ∧ u.pc = t.pc ∧ u.run = t.run ∧ u.fault = t.fault ∧ u.out = t.out ∧
      (∀ k, m.read k = s.mem.read k → u.mem.read k = t.mem.read k)

/-! ### Reset, the invariant, the end of a run -/

/-- 10_state R26: every value after reset; and after reset and load the program's bytes stand from cell 0, every other
cell holds 0x00, the rest is as reset left it, and the first opcode is that of cell 0. -/
def Obligations.ResetValues : Prop :=
  (∀ a, a ≤ 255 → State.reset.mem.read a = 0x00#8) ∧
  (∀ i : RegIndex, State.reset.reg i = if i = 7 then 0xF4#8 else 0x00#8) ∧
  State.reset.pc = 0 ∧ State.reset.run = true ∧ State.reset.fault = none ∧ State.reset.out = [] ∧
  (∀ bytes : List Byte, bytes.length ≤ 256 → ∃ t, launch bytes = some t ∧
    (∀ a, a ≤ 255 → t.mem.read a = bytes.getD a 0x00#8) ∧ t.opcodeByte = t.mem.read 0 ∧
    t.x = State.reset.x ∧ t.pc = 0 ∧ t.run = true ∧ t.fault = none ∧ t.out = [])

/-- The invariant holds at reset, and after the load of any program that fits. -/
def Obligations.InvariantAtReset : Prop :=
  State.reset.Inv ∧ ∀ (bytes : List Byte) (s : State), launch bytes = some s → s.Inv

/-- Every step keeps the invariant: canonical memory, a pc of 0 to 256 (10_state R16), RUN true and a record that
fits the instruction at the pc in a faulted state (10_state R19, 60_exceptions R81), a HLT just below the pc in a
halted one (40_dispatch_loop R63). -/
def Obligations.StepKeepsTheInvariant : Prop :=
  ∀ s t : State, s.Inv → step s = .next t → t.Inv

/-- 40_dispatch_loop R63: from every running state, whatever memory holds, the run ends within 128 completed cycles
and one faulting cycle, halted or faulted, and stays as it ended: a halted run has ended after 128 cycles, a
faulted one after 129 with the faulting cycle. The bound is the spec's own inference (R63, "so no run has more than
128 completed cycles"). -/
def Obligations.EveryRunEnds : Prop :=
  ∀ (s : State) (n : Nat), s.running → 129 ≤ n →
    runLoop n s = runLoop 129 s ∧
    ((runLoop n s).run = false → runLoop n s = runLoop 128 s) ∧
    (((runLoop n s).run = false ∧ (runLoop n s).fault = none ∧ 1 ≤ (runLoop n s).pc.toNat ∧
        (runLoop n s).mem.read ((runLoop n s).pc.toNat - 1) = 0x01#8) ∨
      (∃ r, (runLoop n s).fault = some r ∧ (runLoop n s).run = true ∧ r.pc = (runLoop n s).pc))

/-- 10_state R20: along every run the output only grows at its end. -/
def Obligations.OutputOnlyGrows : Prop :=
  ∀ (n : Nat) (s : State), s.out <+: (runLoop n s).out

/-! ### The host's side -/

/-- 70_reset_and_hazards R99: `load_program` refuses more than 256 bytes; else byte `i` goes to cell `i`, every other
cell and all other state keep their values. -/
def Obligations.ProgramLoad : Prop :=
  ∀ (s : State) (bytes : List Byte),
    (256 < bytes.length → s.loadProgram bytes = none) ∧
    (bytes.length ≤ 256 → ∃ t, s.loadProgram bytes = some t ∧
      (∀ k, t.mem.read k = if h : k < bytes.length then bytes[k] else s.mem.read k) ∧
      t.x = s.x ∧ t.pc = s.pc ∧ t.run = s.run ∧ t.fault = s.fault ∧ t.out = s.out)

/-- 70_reset_and_hazards R102, a rule the spec marks as derived: with no program, or where execution reaches a cell that holds 0x00, the step latches
UnknownInstruction of opcode 0x00; at pc 256 it latches the address fault. -/
def Obligations.RunningOffTheProgramFaults : Prop :=
  step State.reset = .next { State.reset with fault := some (.unknownInstruction 0x00#8 0) } ∧
  (∀ s : State, s.running → s.pc.toNat ≤ 255 → s.opcodeByte = 0x00#8 →
    step s = .next { s with fault := some (.unknownInstruction 0x00#8 s.pc) }) ∧
  (∀ s : State, s.running → s.pc = 256 →
    step s = .next { s with fault := some (.memoryAddressOutOfRange 256 256) })

/-- 42_output_and_halt R66: the text form begins with the prefix, its digits read back as the value, without a
leading zero, and the whole is 6 to 8 characters. -/
def Obligations.RenderedTextReadsBack : Prop :=
  ∀ v : Byte,
    (render v).take 5 = ['P', 'R', 'N', ':', ' '] ∧
    ((render v).drop 5).foldl (fun n c => 10 * n + (c.toNat - 48)) 0 = v.toNat ∧
    ((render v).drop 5).all Char.isDigit = true ∧
    ((render v).drop 5 = ['0'] ∨ ((render v).drop 5).head? ≠ some '0') ∧
    6 ≤ (render v).length ∧ (render v).length ≤ 8

/-- 60_exceptions R81 (codes) and R90 (what the host makes of the end of a run). -/
def Obligations.OutcomeAtTheEnd : Prop :=
  (causeCode none = 0 ∧ (∀ op pc, causeCode (some (.unknownInstruction op pc)) = 1) ∧
    (∀ pc, causeCode (some (.unsupportedAluOperation pc)) = 2) ∧
    (∀ a pc, causeCode (some (.memoryAddressOutOfRange a pc)) = 3) ∧
    (∀ i pc, causeCode (some (.registerIndexOutOfRange i pc)) = 4)) ∧
  (∀ s : State, s.running → s.exitStatus = none) ∧
  (∀ s : State, s.succeeded → s.exitStatus = some 0) ∧
  (∀ s : State, s.fault ≠ none → s.exitStatus = some 1)

/-- 60_exceptions R95: the trace view shows the pc, the three cells from it, absent above 255, and the eight registers. -/
def Obligations.TraceViewShowsTheState : Prop :=
  ∀ s : State, s.traceView.pc = s.pc ∧
    (∀ k, k < 3 → s.traceView.cells[k]? =
      some (if 255 < s.pc.toNat + k then none else some (s.mem.read (s.pc.toNat + k)))) ∧
    s.traceView.cells.length = 3 ∧ (∀ j : RegIndex, s.traceView.regs[j] = s.reg j)

/-- 30_encoding R53: a file of one eight-digit binary line per byte loads as exactly those bytes. R53 does not say what
ends a line: that a line feed does is the model's choice (assumption log 12), as in the Loader table of
95_test_vectors, whose lines have a newline between them. -/
def Obligations.LoaderReadsBinaryLines : Prop :=
  ∀ bytes : List Byte,
    loader (bytes.flatMap fun b =>
      ((List.range 8).map fun k => if b.getLsbD (7 - k) then '1' else '0') ++ ['\n']) = some bytes
end

