-- ==== Sys2Proof/Laws/Except.lean ====
section
/-! SUPPORT. The two binds of Except, in which handlers and the decoder are written. -/

namespace Sys2Proof

variable {ε α β : Type}

/-- A bind on an error is that error. -/
@[simp] theorem except_bind_error (r : ε) (f : α → Except ε β) :
    ((Except.error r : Except ε α) >>= f) = .error r := rfl

/-- A bind on a value goes on with it. -/
@[simp] theorem except_bind_ok (a : α) (f : α → Except ε β) :
    ((Except.ok a : Except ε α) >>= f) = f a := rfl

end Sys2Proof
end

