-- ==== Sys2Proof/Laws/Decode.lean ====
section
/-! SUPPORT. The lookup and the decoder, rewritten once. -/

namespace Sys2Proof

open Sys2Proof.Machine

/-- The lookup finds exactly the six bytes of the table. -/
theorem decodeOpcode_cases (op : Byte) :
    (op ∉ tableOpcodes ∧ decodeOpcode op = none) ∨
    (op = 0x82#8 ∧ decodeOpcode op = some .ldi) ∨ (op = 0x47#8 ∧ decodeOpcode op = some .prn) ∨
    (op = 0x01#8 ∧ decodeOpcode op = some .hlt) ∨ (op = 0xA2#8 ∧ decodeOpcode op = some .mul) ∨
    (op = 0x45#8 ∧ decodeOpcode op = some .push) ∨ (op = 0x46#8 ∧ decodeOpcode op = some .pop) := by
  by_cases h : op ∈ tableOpcodes
  · simp only [tableOpcodes, List.mem_cons, List.not_mem_nil, or_false] at h
    rcases h with rfl | rfl | rfl | rfl | rfl | rfl <;> decide
  · refine .inl ⟨h, ?_⟩
    simp only [tableOpcodes, List.mem_cons, List.not_mem_nil, or_false, not_or] at h
    obtain ⟨h1, h2, h3, h4, h5, h6⟩ := h
    simp only [decodeOpcode, if_neg h1, if_neg h2, if_neg h3, if_neg h4, if_neg h5, if_neg h6]

/-- A list that holds an opcode byte of the table decodes by that opcode's operands. -/
theorem decode_cons_known (op : Byte) (rest : List Byte) (k : Opcode) (h : decodeOpcode op = some k) :
    decode (op :: rest) = decodeOperands (byteAt (op :: rest)) k := by
  have h0 : byteAt (op :: rest) 0 = .ok op := rfl
  simp only [decode, decodeWith, h0, except_bind_ok, h]

/-- A list that begins with any other byte is refused by that byte. -/
theorem decode_cons_unknown (op : Byte) (rest : List Byte) (h : decodeOpcode op = none) :
    decode (op :: rest) = .error (.unknownOpcode op) := by
  have h0 : byteAt (op :: rest) 0 = .ok op := rfl
  simp only [decode, decodeWith, h0, except_bind_ok, h]

/-- No byte, no instruction. -/
theorem decode_nil : decode [] = .error (.missingByte 0) := rfl

/-- A byte of a list that is there. -/
theorem byteAt_ok (bytes : List Byte) (k : Nat) (h : k < bytes.length) : byteAt bytes k = .ok bytes[k] := by
  simp [byteAt, h]

/-- A byte of a list that is not there. -/
theorem byteAt_error (bytes : List Byte) (k : Nat) (h : bytes.length ≤ k) :
    byteAt bytes k = .error (.missingByte k) := by
  simp [byteAt, h]

/-- The lookup is the inverse of the opcode column. -/
theorem decodeOpcode_code (k : Opcode) : decodeOpcode k.code = some k := by cases k <;> decide

end Sys2Proof
end

