-- ==== Sys2Proof/Laws/Memory.lean ====
section
/-! SUPPORT. The laws of memory: a read after a write, for every memory; the canonical form kept by every operation; and canonical memories with equal cells are equal. -/

namespace Sys2Proof.Machine

open Sys2Proof

namespace MemoryLaws

variable {m : Memory}

theorem read_insert_self (a : Nat) (v : Byte) (h : ∀ c ∈ m, c.1 ≠ a) :
    (Memory.insert (a, v) m).read a = v := by
  induction m with
  | nil => simp [Memory.insert, Memory.read]
  | cons d m ih =>
    have hd : d.1 ≠ a := h d (by simp)
    simp only [Memory.insert]
    split
    · simp [Memory.read]
    · simp [Memory.read, hd, ih fun c hc => h c (by simp [hc])]

theorem read_insert_ne (c : Host.Cell) (a : Nat) (h : c.1 ≠ a) :
    (Memory.insert c m).read a = m.read a := by
  induction m with
  | nil => simp [Memory.insert, Memory.read, h]
  | cons d m ih =>
    simp only [Memory.insert]
    split
    · simp [Memory.read, h]
    · simp [Memory.read, ih]

theorem read_of_not_listed (a : Nat) (h : ∀ c ∈ m, c.1 ≠ a) : m.read a = 0 := by
  induction m with
  | nil => rfl
  | cons d m ih =>
    have hd : d.1 ≠ a := h d (by simp)
    simp [Memory.read, hd, ih fun c hc => h c (by simp [hc])]

theorem read_erase_ne (a b : Nat) (h : b ≠ a) :
    Memory.read (m.filter fun c => c.1 != a) b = m.read b := by
  induction m with
  | nil => rfl
  | cons d m ih =>
    by_cases hd : d.1 = a
    · have : d.1 ≠ b := fun e => h (e.symm.trans hd)
      simp [Memory.read, hd, ih, Ne.symm h]
    · simp [Memory.read, hd, ih]

theorem mem_insert (c d : Host.Cell) : d ∈ Memory.insert c m ↔ d = c ∨ d ∈ m := by
  induction m with
  | nil => simp [Memory.insert]
  | cons e m ih =>
    simp only [Memory.insert]
    split
    · simp
    · simp only [List.mem_cons, ih]; tauto

theorem insert_sorted (c : Host.Cell) (hm : m.Pairwise fun c d => c.1 < d.1) (h : ∀ d ∈ m, d.1 ≠ c.1) :
    (Memory.insert c m).Pairwise fun c d => c.1 < d.1 := by
  induction m with
  | nil => simp [Memory.insert]
  | cons e m ih =>
    rw [List.pairwise_cons] at hm
    simp only [Memory.insert]
    split
    · rename_i hlt
      refine List.pairwise_cons.mpr ⟨?_, List.pairwise_cons.mpr hm⟩
      intro d hd
      rcases List.mem_cons.mp hd with rfl | hd
      · exact hlt
      · exact lt_trans hlt (hm.1 d hd)
    · rename_i hge
      have hne : e.1 ≠ c.1 := h e (by simp)
      refine List.pairwise_cons.mpr ⟨?_, ih hm.2 fun d hd => h d (by simp [hd])⟩
      intro d hd
      rcases (mem_insert c d).mp hd with rfl | hd
      · omega
      · exact hm.1 d hd

end MemoryLaws

open MemoryLaws

/-- A read of any cell after a write (20_memory R30: "Only cell `a` changes"), in every memory. -/
@[simp] theorem Memory.read_write (m : Memory) (a b : Nat) (v : Byte) :
    (m.write a v).read b = if b = a then v else m.read b := by
  have hrest : ∀ c ∈ m.filter (fun c => c.1 != a), c.1 ≠ a := by
    intro c hc
    simpa using (List.mem_filter.mp hc).2
  by_cases h : b = a
  · subst h
    by_cases hv : v = 0
    · simp [Memory.write, hv, read_of_not_listed b hrest]
    · simp only [Memory.write, if_neg hv, read_insert_self b v hrest, if_true]
  · by_cases hv : v = 0
    · simp [Memory.write, hv, h, read_erase_ne a b h]
    · simp only [Memory.write, if_neg hv, if_neg h, read_insert_ne (a, v) b (fun e => h e.symm),
        read_erase_ne a b h]

/-- A write at a legal address keeps the canonical form. -/
theorem Memory.write_wf (m : Memory) (a : Nat) (v : Byte) (hm : m.wf) (ha : a < Config.memSize) :
    (m.write a v).wf := by
  obtain ⟨hs, hc⟩ := hm
  have hrest : ∀ c ∈ m.filter (fun c => c.1 != a), c.1 ≠ a ∧ c ∈ m := by
    intro c hc
    exact ⟨by simpa using (List.mem_filter.mp hc).2, (List.mem_filter.mp hc).1⟩
  have hsort := hs.filter (fun c => c.1 != a)
  by_cases hv : v = 0
  · simp only [Memory.write, hv, if_true]
    exact ⟨hsort, fun c h => hc c (hrest c h).2⟩
  · simp only [Memory.write, hv, if_false]
    refine ⟨insert_sorted _ hsort fun d hd => (hrest d hd).1, fun c h => ?_⟩
    rcases (mem_insert _ c).mp h with rfl | h
    · exact ⟨ha, hv⟩
    · exact hc c (hrest c h).2

/-- Writing a run of bytes within the address space keeps the canonical form. -/
theorem Memory.writeBytes_wf (bytes : List Byte) (m : Memory) (a : Nat) (hm : m.wf)
    (ha : a + bytes.length ≤ Config.memSize) : (m.writeBytes a bytes).wf := by
  induction bytes generalizing m a with
  | nil => exact hm
  | cons b bs ih =>
    simp only [List.length_cons] at ha
    exact ih (m.write a b) (a + 1) (Memory.write_wf m a b hm (by omega)) (by omega)

/-- A read of any cell after a run of bytes was written. -/
theorem Memory.read_writeBytes (bytes : List Byte) (m : Memory) (a k : Nat) :
    (m.writeBytes a bytes).read k =
      if a ≤ k ∧ k < a + bytes.length then bytes.getD (k - a) 0 else m.read k := by
  induction bytes generalizing m a with
  | nil =>
    have : ¬ (a ≤ k ∧ k < a) := by omega
    simp [Memory.writeBytes, this]
  | cons b bs ih =>
    simp only [Memory.writeBytes, ih, Memory.read_write, List.length_cons]
    by_cases h0 : k = a
    · subst h0
      simp
    · by_cases h1 : a + 1 ≤ k ∧ k < a + 1 + bs.length
      · have h2 : a ≤ k ∧ k < a + (bs.length + 1) := by omega
        have h3 : k - a = (k - (a + 1)) + 1 := by omega
        rw [if_pos h1, if_pos h2, h3, List.getD_cons_succ]
      · have h2 : ¬ (a ≤ k ∧ k < a + (bs.length + 1)) := by omega
        rw [if_neg h1, if_neg h2, if_neg h0]

/-- Canonical memories that agree on every cell are the same data. -/
theorem Memory.ext_of_wf {m n : Memory} (hm : m.wf) (hn : n.wf) (h : ∀ a, m.read a = n.read a) : m = n := by
  induction m generalizing n with
  | nil =>
    cases n with
    | nil => rfl
    | cons d n =>
      have := h d.1
      simp [Memory.read] at this
      exact absurd this.symm (hn.2 d (by simp)).2
  | cons c m ih =>
    have hcm : ∀ e ∈ m, c.1 < e.1 := (List.pairwise_cons.mp hm.1).1
    cases n with
    | nil =>
      have := h c.1
      simp [Memory.read] at this
      exact absurd this (hm.2 c (by simp)).2
    | cons d n =>
      have hdn : ∀ e ∈ n, d.1 < e.1 := (List.pairwise_cons.mp hn.1).1
      have hc0 : c.2 ≠ 0 := (hm.2 c (by simp)).2
      have hd0 : d.2 ≠ 0 := (hn.2 d (by simp)).2
      have hkey : c.1 = d.1 := by
        rcases Nat.lt_trichotomy c.1 d.1 with hlt | heq | hgt
        · have hr := h c.1
          rw [read_of_not_listed (m := d :: n) c.1 (by
            intro e he
            rcases List.mem_cons.mp he with rfl | he
            · omega
            · have := hdn e he; omega)] at hr
          simp [Memory.read] at hr
          exact absurd hr hc0
        · exact heq
        · have hr := h d.1
          rw [read_of_not_listed (m := c :: m) d.1 (by
            intro e he
            rcases List.mem_cons.mp he with rfl | he
            · omega
            · have := hcm e he; omega)] at hr
          simp [Memory.read] at hr
          exact absurd hr.symm hd0
      have hval : c.2 = d.2 := by simpa [Memory.read, hkey] using h c.1
      have hcd : c = d := Prod.ext hkey hval
      have htail : m = n := by
        apply ih ⟨(List.pairwise_cons.mp hm.1).2, fun e he => hm.2 e (by simp [he])⟩
          ⟨(List.pairwise_cons.mp hn.1).2, fun e he => hn.2 e (by simp [he])⟩
        intro a
        by_cases ha : a = c.1
        · subst ha
          rw [read_of_not_listed c.1 fun e he => by have := hcm e he; omega,
            read_of_not_listed c.1 fun e he => by have := hdn e he; omega]
        · have hr := h a
          have h1 : c.1 ≠ a := fun e => ha e.symm
          have h2 : d.1 ≠ a := fun e => ha (hkey ▸ e.symm)
          simpa [Memory.read, h1, h2] using hr
      rw [hcd, htail]

/-- Reset memory is canonical. -/
theorem reset_memory_wf : State.reset.mem.wf := by
  simp [State.reset, Memory.wf]

/-- `setCell` at a legal address keeps memory canonical. -/
theorem State.setCell_wf (s : State) (a v : Nat) (hm : s.mem.wf) (ha : a < Config.memSize) :
    (s.setCell a v).mem.wf := Memory.write_wf s.mem a (narrow v) hm ha

/-- `placeBytes` keeps memory canonical. -/
theorem State.placeBytes_wf (s : State) (bytes : List Byte) (hm : s.mem.wf) : (s.placeBytes bytes).mem.wf := by
  by_cases hp : s.pc.toNat ≤ Config.memSize
  · exact Memory.writeBytes_wf _ _ _ hm (by rw [List.length_take]; omega)
  · have h0 : Config.memSize - s.pc.toNat = 0 := by omega
    simpa [State.placeBytes, h0, Memory.writeBytes] using hm

end Sys2Proof.Machine
end

