-- ==== Sys2Proof/Laws/State.lean ====
section
/-! SUPPORT. One lemma per field per update of the state, so that no later proof unfolds a record update. -/

namespace Sys2Proof.Machine

open Sys2Proof

variable (s : State) (i j : RegIndex) (v a w : Nat) (b : Byte) (r : FaultRecord)

@[simp] theorem State.setReg_mem : (s.setReg i v).mem = s.mem := rfl
@[simp] theorem State.setReg_pc : (s.setReg i v).pc = s.pc := rfl
@[simp] theorem State.setReg_run : (s.setReg i v).run = s.run := rfl
@[simp] theorem State.setReg_fault : (s.setReg i v).fault = s.fault := rfl
@[simp] theorem State.setReg_out : (s.setReg i v).out = s.out := rfl

@[simp] theorem State.setCell_mem : (s.setCell a v).mem = s.mem.write a (narrow v) := rfl
@[simp] theorem State.setCell_x : (s.setCell a v).x = s.x := rfl
@[simp] theorem State.setCell_pc : (s.setCell a v).pc = s.pc := rfl
@[simp] theorem State.setCell_run : (s.setCell a v).run = s.run := rfl
@[simp] theorem State.setCell_fault : (s.setCell a v).fault = s.fault := rfl
@[simp] theorem State.setCell_out : (s.setCell a v).out = s.out := rfl
@[simp] theorem State.setCell_reg : (s.setCell a v).reg i = s.reg i := rfl

@[simp] theorem State.advance_mem : (s.advance w).mem = s.mem := rfl
@[simp] theorem State.advance_x : (s.advance w).x = s.x := rfl
@[simp] theorem State.advance_pc : (s.advance w).pc = s.pc + BitVec.ofNat 9 w := rfl
@[simp] theorem State.advance_run : (s.advance w).run = s.run := rfl
@[simp] theorem State.advance_fault : (s.advance w).fault = s.fault := rfl
@[simp] theorem State.advance_out : (s.advance w).out = s.out := rfl
@[simp] theorem State.advance_reg : (s.advance w).reg i = s.reg i := rfl

@[simp] theorem State.emit_mem : (s.emit b).mem = s.mem := rfl
@[simp] theorem State.emit_x : (s.emit b).x = s.x := rfl
@[simp] theorem State.emit_pc : (s.emit b).pc = s.pc := rfl
@[simp] theorem State.emit_run : (s.emit b).run = s.run := rfl
@[simp] theorem State.emit_fault : (s.emit b).fault = s.fault := rfl
@[simp] theorem State.emit_out : (s.emit b).out = s.out ++ [b] := rfl
@[simp] theorem State.emit_reg : (s.emit b).reg i = s.reg i := rfl

@[simp] theorem State.halt_mem : s.halt.mem = s.mem := rfl
@[simp] theorem State.halt_x : s.halt.x = s.x := rfl
@[simp] theorem State.halt_pc : s.halt.pc = s.pc := rfl
@[simp] theorem State.halt_run : s.halt.run = false := rfl
@[simp] theorem State.halt_fault : s.halt.fault = s.fault := rfl
@[simp] theorem State.halt_out : s.halt.out = s.out := rfl
@[simp] theorem State.halt_reg : s.halt.reg i = s.reg i := rfl

@[simp] theorem State.latch_mem : (s.latch r).mem = s.mem := rfl
@[simp] theorem State.latch_x : (s.latch r).x = s.x := rfl
@[simp] theorem State.latch_pc : (s.latch r).pc = s.pc := rfl
@[simp] theorem State.latch_run : (s.latch r).run = s.run := rfl
@[simp] theorem State.latch_fault : (s.latch r).fault = some r := rfl
@[simp] theorem State.latch_out : (s.latch r).out = s.out := rfl
@[simp] theorem State.latch_reg : (s.latch r).reg i = s.reg i := rfl

/-- A register after a register write: the low 8 bits in the one written, the old value in every other. -/
@[simp] theorem State.setReg_reg :
    (s.setReg i v).reg j = if j = i then narrow v else s.reg j := by
  simp only [State.reg, State.setReg]
  by_cases h : j = i
  · subst h; simp
  · have : i.val ≠ j.val := fun e => h (Fin.ext e.symm)
    simp [h, this]

/-- Two register files that agree on every register are the same. -/
theorem State.x_ext {s t : State} (h : ∀ k : RegIndex, s.reg k = t.reg k) : s.x = t.x := by
  apply Vector.ext
  intro k hk
  exact h ⟨k, hk⟩

end Sys2Proof.Machine
end

