-- ==== Sys2Proof/Laws/Ops.lean ====
section
/-! SUPPORT. One lemma per shared operation that says everything it can do, to be cited in place of unfolding it. -/

namespace Sys2Proof.Machine

open Sys2Proof

/-- Every outcome of the index check. -/
theorem State.checkIndex_eq (s : State) (i : Byte) :
    (∃ h : i.toNat < 8, s.checkIndex i = .ok ⟨i.toNat, h⟩) ∨
    (7 < i.toNat ∧ s.checkIndex i = .error (.registerIndexOutOfRange i s.pc)) := by
  unfold State.checkIndex
  by_cases h : i.toNat > 7
  · exact .inr ⟨h, by simp [h]⟩
  · exact .inl ⟨by omega, by simp [h]⟩

/-- The register operand that names register `r`. -/
theorem regOperand_ok (s : State) (a : Byte) (r : RegIndex) (h : a.toNat = r.val) :
    regOperand a s = .ok r := by
  have hr := r.isLt
  have hle : ¬ a.toNat > 7 := by omega
  simp only [regOperand, State.checkIndex, hle, dite_false]
  exact congrArg _ (Fin.ext h)

/-- The register operand that names no register. -/
theorem regOperand_error (s : State) (a : Byte) (h : 7 < a.toNat) :
    regOperand a s = .error (.registerIndexOutOfRange a s.pc) := by
  simp [regOperand, State.checkIndex, h]

/-- A memory read at a legal address. -/
theorem State.memRead_ok (s : State) (a : Nat) (h : a ≤ 255) : s.memRead a = .ok (s.mem.read a) := by
  simp [State.memRead, Nat.not_lt.mpr h]

/-- A memory read above 255. -/
theorem State.memRead_error (s : State) (a : Nat) (h : 255 < a) :
    s.memRead a = .error (.memoryAddressOutOfRange a s.pc) := by
  simp [State.memRead, h]

/-- A memory write at a legal address. -/
theorem State.memWrite_ok (s : State) (a v : Nat) (h : a ≤ 255) : s.memWrite a v = .ok (s.setCell a v) := by
  simp [State.memWrite, Nat.not_lt.mpr h]

/-- A memory write above 255. -/
theorem State.memWrite_error (s : State) (a v : Nat) (h : 255 < a) :
    s.memWrite a v = .error (.memoryAddressOutOfRange a s.pc) := by
  simp [State.memWrite, h]

/-- A handler's end is always a next state: its effects, or the latch on the state it began in. -/
theorem State.settle_eq (s : State) (e : Except FaultRecord State) :
    (∃ t, e = .ok t ∧ s.settle e = .next t) ∨ (∃ r, e = .error r ∧ s.settle e = .next (s.latch r)) := by
  cases e with
  | ok t => exact .inl ⟨t, rfl, rfl⟩
  | error r => exact .inr ⟨r, rfl, rfl⟩

/-- Narrowing a byte's own value changes nothing. -/
@[simp] theorem narrow_toNat (b : Byte) : narrow b.toNat = b := by simp [narrow]

/-- The number a narrowed result stands for. -/
@[simp] theorem narrow_toNat_eq (v : Nat) : (narrow v).toNat = v % 256 := by simp [narrow]

end Sys2Proof.Machine
end

