-- ==== Sys2Proof/Laws/Exec.lean ====
section
/-! SUPPORT. The meanings rewritten once, case by case, and the run states of the step, so that no later proof unfolds a handler. -/

namespace Sys2Proof.Machine

open Sys2Proof

variable (s : State)

/-- LDI with a register that exists. -/
theorem exec_ldi_ok (a imm : Byte) (r : RegIndex) (h : a.toNat = r.val) :
    exec (.ldi a imm) s = .next ((s.setReg r imm.toNat).advance 3) := by
  simp [exec, execLdi, regOperand_ok s a r h, State.settle, immOperand]

/-- PRN with a register that exists. -/
theorem exec_prn_ok (a : Byte) (r : RegIndex) (h : a.toNat = r.val) :
    exec (.prn a) s = .next ((s.emit (s.reg r)).advance 2) := by
  simp [exec, execPrn, regOperand_ok s a r h, State.settle]

/-- HLT, always. -/
theorem exec_hlt : exec .hlt s = .next (s.halt.advance 1) := rfl

/-- MUL with registers that exist. -/
theorem exec_mul_ok (a b : Byte) (ra rb : RegIndex) (ha : a.toNat = ra.val) (hb : b.toNat = rb.val) :
    exec (.mul a b) s =
      .next ((s.setReg ra (exactProduct (s.reg ra) (s.reg rb))).advance 3) := by
  simp [exec, execMul, regOperand_ok s a ra ha, regOperand_ok s b rb hb, State.settle, alu]

/-- PUSH with a register that exists: the stack write never faults (44_stack R78). -/
theorem exec_push_ok (a : Byte) (r : RegIndex) (h : a.toNat = r.val) :
    exec (.push a) s =
      .next (((s.setReg Config.spIndex (exactDecrement s.sp)).setCell
        (narrow (exactDecrement s.sp)).toNat
        ((s.setReg Config.spIndex (exactDecrement s.sp)).reg r).toNat).advance 2) := by
  have hsp : (s.setReg Config.spIndex (exactDecrement s.sp)).sp = narrow (exactDecrement s.sp) := by
    simp [State.sp]
  have hle : (narrow (exactDecrement s.sp)).toNat ≤ 255 := by
    have := (narrow (exactDecrement s.sp)).isLt; omega
  simp only [exec, execPush, regOperand_ok s a r h, except_bind_ok, hsp, State.memWrite_ok _ _ _ hle,
    State.settle]

/-- POP with a register that exists: the stack read never faults (44_stack R78). -/
theorem exec_pop_ok (a : Byte) (r : RegIndex) (h : a.toNat = r.val) :
    exec (.pop a) s =
      .next (((s.setReg r (s.mem.read s.sp.toNat).toNat).setReg Config.spIndex
        (exactIncrement (s.setReg r (s.mem.read s.sp.toNat).toNat).sp)).advance 2) := by
  have hle : s.sp.toNat ≤ 255 := by have := s.sp.isLt; omega
  simp only [exec, execPop, regOperand_ok s a r h, except_bind_ok, State.memRead_ok _ _ hle, State.settle]

/-- The four instructions of one register operand, LDI among them, with a register that does not exist. -/
theorem exec_one_error (a imm : Byte) (h : 7 < a.toNat) :
    exec (.ldi a imm) s = .next (s.latch (.registerIndexOutOfRange a s.pc)) ∧
    exec (.prn a) s = .next (s.latch (.registerIndexOutOfRange a s.pc)) ∧
    exec (.push a) s = .next (s.latch (.registerIndexOutOfRange a s.pc)) ∧
    exec (.pop a) s = .next (s.latch (.registerIndexOutOfRange a s.pc)) := by
  simp [exec, execLdi, execPrn, execPush, execPop, regOperand_error s a h, State.settle, State.raise]

/-- MUL with a first register that does not exist. -/
theorem exec_mul_error_a (a b : Byte) (h : 7 < a.toNat) :
    exec (.mul a b) s = .next (s.latch (.registerIndexOutOfRange a s.pc)) := by
  simp [exec, execMul, regOperand_error s a h, State.settle, State.raise]

/-- MUL with a first register that exists and a second that does not. -/
theorem exec_mul_error_b (a b : Byte) (ra : RegIndex) (ha : a.toNat = ra.val) (h : 7 < b.toNat) :
    exec (.mul a b) s = .next (s.latch (.registerIndexOutOfRange b s.pc)) := by
  simp [exec, execMul, regOperand_ok s a ra ha, regOperand_error s b h, State.settle, State.raise]

/-- The step of a running state is one cycle. -/
theorem step_of_running (hr : s.run = true) (hf : s.fault = none) : step s = s.cycle := by
  simp [step, State.runState, hr, hf]

/-- A state that answers a next state is running. -/
theorem running_of_step {t : State} (h : step s = .next t) : s.run = true ∧ s.fault = none := by
  unfold step State.runState at h
  cases hf : s.fault <;> cases hr : s.run <;> simp_all

end Sys2Proof.Machine
end

