-- ==== Sys2Proof/Laws/PerInstr.lean ====
section
/-! SUPPORT. Statements about every instruction as syntax, one lemma per constructor. -/

namespace Sys2Proof.Laws.Width

open Sys2Proof

/-- The bytes of an instruction are as many as its width, 1 to 3, and bits 7 to 6 of the opcode byte equal the
number of operand bytes (30_encoding R43, R47, and the observation R49). -/
def Statement (i : Instr) : Prop :=
  (encode i).length = i.width ∧ 1 ≤ i.width ∧ i.width ≤ Config.maxWidth ∧
    (i.opcode.code >>> 6).toNat = i.operands.length

/-- The same of an opcode alone. -/
theorem opcode_facts (k : Opcode) :
    1 ≤ k.width ∧ k.width ≤ Config.maxWidth ∧ (k.code >>> 6).toNat = k.width - 1 := by
  cases k <;> decide

theorem ldi (a imm : Byte) : Statement (.ldi a imm) := ⟨rfl, opcode_facts .ldi⟩
theorem prn (a : Byte) : Statement (.prn a) := ⟨rfl, opcode_facts .prn⟩
theorem hlt : Statement .hlt := ⟨rfl, opcode_facts .hlt⟩
theorem mul (a b : Byte) : Statement (.mul a b) := ⟨rfl, opcode_facts .mul⟩
theorem push (a : Byte) : Statement (.push a) := ⟨rfl, opcode_facts .push⟩
theorem pop (a : Byte) : Statement (.pop a) := ⟨rfl, opcode_facts .pop⟩

end Sys2Proof.Laws.Width
end

