-- ==== Sys2Proof/Laws/Step.lean ====
section
/-! SUPPORT. What a fetch can answer, and everything a step can do, said once: `step_case` gives the next state of a running state as one of twelve cases. -/

namespace Sys2Proof.Machine

open Sys2Proof

/-- The twelve things a step of a running state can do: six ways to latch a fault and six effects. -/
inductive StepCase (s : State) : State → Prop
  | pastEnd (hp : 255 < s.pc.toNat) :
      StepCase s (s.latch (.memoryAddressOutOfRange s.pc.toNat s.pc))
  | unknown (hp : s.pc.toNat ≤ 255) (ho : s.opcodeByte ∉ tableOpcodes) :
      StepCase s (s.latch (.unknownInstruction s.opcodeByte s.pc))
  | missingA (hp : s.pc.toNat = 255) (ho : s.opcodeByte ∈ opcodesWithA) :
      StepCase s (s.latch (.memoryAddressOutOfRange 256 s.pc))
  | missingB (hp : s.pc.toNat = 254) (ho : s.opcodeByte ∈ opcodesWithB) :
      StepCase s (s.latch (.memoryAddressOutOfRange 256 s.pc))
  | badA (hp : s.pc.toNat ≤ 254) (ho : s.opcodeByte ∈ opcodesWithA)
      (hb : s.opcodeByte ∈ opcodesWithB → s.pc.toNat ≤ 253) (ha : 7 < s.byteA.toNat) :
      StepCase s (s.latch (.registerIndexOutOfRange s.byteA s.pc))
  | badB (hp : s.pc.toNat ≤ 253) (ho : s.opcodeByte = 0xA2#8) (ha : s.byteA.toNat ≤ 7)
      (hb : 7 < s.byteB.toNat) :
      StepCase s (s.latch (.registerIndexOutOfRange s.byteB s.pc))
  | ldi (r : RegIndex) (hp : s.pc.toNat ≤ 253) (ho : s.opcodeByte = 0x82#8) (ha : s.byteA.toNat = r.val) :
      StepCase s ((s.setReg r s.byteB.toNat).advance 3)
  | prn (r : RegIndex) (hp : s.pc.toNat ≤ 254) (ho : s.opcodeByte = 0x47#8) (ha : s.byteA.toNat = r.val) :
      StepCase s ((s.emit (s.reg r)).advance 2)
  | hlt (hp : s.pc.toNat ≤ 255) (ho : s.opcodeByte = 0x01#8) :
      StepCase s (s.halt.advance 1)
  | mul (ra rb : RegIndex) (hp : s.pc.toNat ≤ 253) (ho : s.opcodeByte = 0xA2#8)
      (ha : s.byteA.toNat = ra.val) (hb : s.byteB.toNat = rb.val) :
      StepCase s ((s.setReg ra (exactProduct (s.reg ra) (s.reg rb))).advance 3)
  | push (r : RegIndex) (hp : s.pc.toNat ≤ 254) (ho : s.opcodeByte = 0x45#8) (ha : s.byteA.toNat = r.val) :
      StepCase s (((s.setReg Config.spIndex (exactDecrement s.sp)).setCell
        (narrow (exactDecrement s.sp)).toNat
        ((s.setReg Config.spIndex (exactDecrement s.sp)).reg r).toNat).advance 2)
  | pop (r : RegIndex) (hp : s.pc.toNat ≤ 254) (ho : s.opcodeByte = 0x46#8) (ha : s.byteA.toNat = r.val) :
      StepCase s (((s.setReg r (s.mem.read s.sp.toNat).toNat).setReg Config.spIndex
        (exactIncrement (s.setReg r (s.mem.read s.sp.toNat).toNat).sp)).advance 2)

variable (s : State)

/-- The opcode read of a fetch. -/
theorem fetch_read_opcode (h : s.pc.toNat ≤ 255) : s.memRead (s.pc.toNat + 0) = .ok s.opcodeByte :=
  s.memRead_ok _ h

/-- The read of the first operand byte. -/
theorem fetch_read_a (h : s.pc.toNat ≤ 254) : s.memRead (s.pc.toNat + 1) = .ok s.byteA :=
  s.memRead_ok _ (by omega)

/-- The read of the second operand byte. -/
theorem fetch_read_b (h : s.pc.toNat ≤ 253) : s.memRead (s.pc.toNat + 2) = .ok s.byteB :=
  s.memRead_ok _ (by omega)

/-- A fetch past the last cell. -/
theorem fetch_past_end (h : 255 < s.pc.toNat) :
    s.fetch = .error (.memoryAddressOutOfRange s.pc.toNat s.pc) := by
  simp [State.fetch, decodeWith, s.memRead_error s.pc.toNat h]

/-- A fetch of a byte outside the table. -/
theorem fetch_unknown (h : s.pc.toNat ≤ 255) (ho : decodeOpcode s.opcodeByte = none) :
    s.fetch = .error (.unknownInstruction s.opcodeByte s.pc) := by
  simp only [State.fetch, decodeWith, decodeOperands, fetch_read_opcode s h, except_bind_ok, ho]

/-- A fetch of HLT. -/
theorem fetch_hlt (h : s.pc.toNat ≤ 255) (ho : decodeOpcode s.opcodeByte = some .hlt) :
    s.fetch = .ok .hlt := by
  simp only [State.fetch, decodeWith, decodeOperands, fetch_read_opcode s h, except_bind_ok, ho]

/-- A fetch at address 255 of an opcode with an operand. -/
theorem fetch_missing_a (h : s.pc.toNat = 255) (k : Opcode) (hk : k ≠ .hlt)
    (ho : decodeOpcode s.opcodeByte = some k) :
    s.fetch = .error (.memoryAddressOutOfRange 256 s.pc) := by
  have h1 : s.memRead (s.pc.toNat + 1) = .error (.memoryAddressOutOfRange 256 s.pc) := by
    rw [h]; exact s.memRead_error 256 (by omega)
  cases k <;> first
    | exact absurd rfl hk
    | simp only [State.fetch, decodeWith, decodeOperands, fetch_read_opcode s h.le, except_bind_ok, ho, h1, except_bind_error]

/-- A fetch at address 254 of an opcode with two operands. -/
theorem fetch_missing_b (h : s.pc.toNat = 254)
    (ho : decodeOpcode s.opcodeByte = some .ldi ∨ decodeOpcode s.opcodeByte = some .mul) :
    s.fetch = .error (.memoryAddressOutOfRange 256 s.pc) := by
  have h1 : s.memRead (s.pc.toNat + 2) = .error (.memoryAddressOutOfRange 256 s.pc) := by
    rw [h]; exact s.memRead_error 256 (by omega)
  rcases ho with ho | ho <;>
    simp only [State.fetch, decodeWith, decodeOperands, fetch_read_opcode s (by omega), fetch_read_a s (by omega),
      except_bind_ok, ho, h1, except_bind_error]

/-- A fetch of an instruction of one operand. -/
theorem fetch_one (h : s.pc.toNat ≤ 254) :
    (decodeOpcode s.opcodeByte = some .prn → s.fetch = .ok (.prn s.byteA)) ∧
    (decodeOpcode s.opcodeByte = some .push → s.fetch = .ok (.push s.byteA)) ∧
    (decodeOpcode s.opcodeByte = some .pop → s.fetch = .ok (.pop s.byteA)) := by
  refine ⟨?_, ?_, ?_⟩ <;> intro ho <;>
    simp only [State.fetch, decodeWith, decodeOperands, fetch_read_opcode s (by omega), fetch_read_a s h, except_bind_ok, ho]

/-- A fetch of an instruction of two operands. -/
theorem fetch_two (h : s.pc.toNat ≤ 253) :
    (decodeOpcode s.opcodeByte = some .ldi → s.fetch = .ok (.ldi s.byteA s.byteB)) ∧
    (decodeOpcode s.opcodeByte = some .mul → s.fetch = .ok (.mul s.byteA s.byteB)) := by
  refine ⟨?_, ?_⟩ <;> intro ho <;>
    simp only [State.fetch, decodeWith, decodeOperands, fetch_read_opcode s (by omega), fetch_read_a s (by omega),
      fetch_read_b s h, except_bind_ok, ho]

/-- A cycle whose fetch raises. -/
theorem cycle_error {r : FaultRecord} (h : s.fetch = .error r) : s.cycle = .next (s.latch r) := by
  simp [State.cycle, h, State.raise]

/-- A cycle whose fetch gives an instruction. -/
theorem cycle_ok {i : Instr} (h : s.fetch = .ok i) : s.cycle = exec i s := by
  simp [State.cycle, h]

/-- Every cycle is one of the twelve cases. -/
theorem cycle_case : ∃ t, s.cycle = .next t ∧ StepCase s t := by
  by_cases hp : 255 < s.pc.toNat
  · exact ⟨_, cycle_error s (fetch_past_end s hp), .pastEnd hp⟩
  have hp' : s.pc.toNat ≤ 255 := by omega
  have hone : ∀ {k : Opcode}, decodeOpcode s.opcodeByte = some k → k ≠ .hlt →
      s.opcodeByte ∈ opcodesWithA → s.pc.toNat = 255 →
      ∃ t, s.cycle = .next t ∧ StepCase s t := fun ho hk hm h =>
    ⟨_, cycle_error s (fetch_missing_a s h _ hk ho), .missingA h hm⟩
  have htwo : decodeOpcode s.opcodeByte = some .ldi ∨ decodeOpcode s.opcodeByte = some .mul →
      s.opcodeByte ∈ opcodesWithB → s.pc.toNat = 254 →
      ∃ t, s.cycle = .next t ∧ StepCase s t := fun ho hm h =>
    ⟨_, cycle_error s (fetch_missing_b s h ho), .missingB h hm⟩
  rcases decodeOpcode_cases s.opcodeByte with
    ⟨hm, ho⟩ | ⟨hb, ho⟩ | ⟨hb, ho⟩ | ⟨hb, ho⟩ | ⟨hb, ho⟩ | ⟨hb, ho⟩ | ⟨hb, ho⟩
  · exact ⟨_, cycle_error s (fetch_unknown s hp' ho), .unknown hp' hm⟩
  · -- LDI
    have hA : s.opcodeByte ∈ opcodesWithA := by rw [hb]; decide
    have hB : s.opcodeByte ∈ opcodesWithB := by rw [hb]; decide
    by_cases h255 : s.pc.toNat = 255
    · exact hone ho (by decide) hA h255
    by_cases h254 : s.pc.toNat = 254
    · exact htwo (.inl ho) hB h254
    rw [cycle_ok s ((fetch_two s (by omega)).1 ho)]
    by_cases ha : 7 < s.byteA.toNat
    · exact ⟨_, (exec_one_error s _ _ ha).1, .badA (by omega) hA (fun _ => by omega) ha⟩
    · exact ⟨_, exec_ldi_ok s _ _ ⟨s.byteA.toNat, by omega⟩ rfl, .ldi _ (by omega) hb rfl⟩
  · -- PRN
    have hA : s.opcodeByte ∈ opcodesWithA := by rw [hb]; decide
    have hB : s.opcodeByte ∉ opcodesWithB := by rw [hb]; decide
    by_cases h255 : s.pc.toNat = 255
    · exact hone ho (by decide) hA h255
    rw [cycle_ok s ((fetch_one s (by omega)).1 ho)]
    by_cases ha : 7 < s.byteA.toNat
    · exact ⟨_, (exec_one_error s _ 0 ha).2.1, .badA (by omega) hA (fun h => absurd h hB) ha⟩
    · exact ⟨_, exec_prn_ok s _ ⟨s.byteA.toNat, by omega⟩ rfl, .prn _ (by omega) hb rfl⟩
  · -- HLT
    rw [cycle_ok s (fetch_hlt s hp' ho)]
    exact ⟨_, exec_hlt s, .hlt hp' hb⟩
  · -- MUL
    have hA : s.opcodeByte ∈ opcodesWithA := by rw [hb]; decide
    have hB : s.opcodeByte ∈ opcodesWithB := by rw [hb]; decide
    by_cases h255 : s.pc.toNat = 255
    · exact hone ho (by decide) hA h255
    by_cases h254 : s.pc.toNat = 254
    · exact htwo (.inr ho) hB h254
    rw [cycle_ok s ((fetch_two s (by omega)).2 ho)]
    by_cases ha : 7 < s.byteA.toNat
    · exact ⟨_, exec_mul_error_a s _ _ ha, .badA (by omega) hA (fun _ => by omega) ha⟩
    by_cases hb' : 7 < s.byteB.toNat
    · exact ⟨_, exec_mul_error_b s _ _ ⟨s.byteA.toNat, by omega⟩ rfl hb', .badB (by omega) hb (by omega) hb'⟩
    · exact ⟨_, exec_mul_ok s _ _ ⟨s.byteA.toNat, by omega⟩ ⟨s.byteB.toNat, by omega⟩ rfl rfl,
        .mul _ _ (by omega) hb rfl rfl⟩
  · -- PUSH
    have hA : s.opcodeByte ∈ opcodesWithA := by rw [hb]; decide
    have hB : s.opcodeByte ∉ opcodesWithB := by rw [hb]; decide
    by_cases h255 : s.pc.toNat = 255
    · exact hone ho (by decide) hA h255
    rw [cycle_ok s ((fetch_one s (by omega)).2.1 ho)]
    by_cases ha : 7 < s.byteA.toNat
    · exact ⟨_, (exec_one_error s _ 0 ha).2.2.1, .badA (by omega) hA (fun h => absurd h hB) ha⟩
    · exact ⟨_, exec_push_ok s _ ⟨s.byteA.toNat, by omega⟩ rfl, .push _ (by omega) hb rfl⟩
  · -- POP
    have hA : s.opcodeByte ∈ opcodesWithA := by rw [hb]; decide
    have hB : s.opcodeByte ∉ opcodesWithB := by rw [hb]; decide
    by_cases h255 : s.pc.toNat = 255
    · exact hone ho (by decide) hA h255
    rw [cycle_ok s ((fetch_one s (by omega)).2.2 ho)]
    by_cases ha : 7 < s.byteA.toNat
    · exact ⟨_, (exec_one_error s _ 0 ha).2.2.2, .badA (by omega) hA (fun h => absurd h hB) ha⟩
    · exact ⟨_, exec_pop_ok s _ ⟨s.byteA.toNat, by omega⟩ rfl, .pop _ (by omega) hb rfl⟩

/-- The step of a running state answers a next state, one of the twelve cases. -/
theorem step_case (h : s.running) : ∃ t, step s = .next t ∧ StepCase s t := by
  rw [step_of_running s h.1 h.2]
  exact cycle_case s

/-- Whatever a step answers as a next state is one of the twelve cases, from a running state. -/
theorem case_of_step {t : State} (h : step s = .next t) : s.running ∧ StepCase s t := by
  have hr := running_of_step s h
  obtain ⟨u, hu, hc⟩ := step_case s hr
  rw [h] at hu
  cases hu
  exact ⟨hr, hc⟩

/-- The cells a decoder sees from the pc, one by one. -/
theorem byteAt_cellsFromPc (k : Nat) :
    byteAt s.cellsFromPc k =
      if s.pc.toNat + k ≤ 255 then .ok (s.mem.read (s.pc.toNat + k)) else .error (.missingByte k) := by
  by_cases h : s.pc.toNat + k ≤ 255
  · rw [if_pos h, byteAt_ok _ k (by simp [State.cellsFromPc, Config.memSize]; omega)]
    simp [State.cellsFromPc]
  · rw [if_neg h, byteAt_error _ k (by simp [State.cellsFromPc, Config.memSize]; omega)]

/-- The pc after an advance that stays in range does not wrap. -/
theorem advance_pc_toNat (w : Nat) (h : s.pc.toNat + w < 512) :
    (s.advance w).pc.toNat = s.pc.toNat + w := by
  simp only [State.advance, BitVec.toNat_add, BitVec.toNat_ofNat]
  omega

end Sys2Proof.Machine
end

