-- ==== Sys2Proof/Tests/Slice0.lean ====
section
/-! SUPPORT. Tests: ill-formed terms refused, words decoded, one step per test from the vectors of 95_test_vectors, and a witness for the hypotheses of every statement. -/

namespace Sys2Proof.Tests

open Sys2Proof Sys2Proof.Machine

/-- The reset state with bytes written from address `p` and the pc there. -/
def place (p : Pc) (bytes : List Byte) : State :=
  { State.reset with pc := p, mem := Memory.writeBytes [] p.toNat bytes }

/-- The outcome is a next state that passes the check. -/
def nextSat (o : Host.Outcome State Fault Refusal) (check : State → Bool) : Bool :=
  match o with
  | .next t => check t
  | .fault _ => false
  | .refused _ => false

/-- The outcome is this stop. -/
def stopsWith (o : Host.Outcome State Fault Refusal) (f : Fault) : Bool :=
  match o with
  | .fault g => g == f
  | .next _ => false
  | .refused _ => false

/-- A step that latches this record and changes nothing else (60_exceptions R88). -/
def latches (s : State) (r : FaultRecord) : Bool :=
  nextSat (step s) fun t => t == { s with fault := some r }

/-! ### Well-formedness: an ill-formed term for each check -/

theorem test_wellFormed_refuses :
    Instr.wellFormed (.ldi 8 0) = false ∧ Instr.wellFormed (.prn 8) = false ∧
    Instr.wellFormed (.mul 8 0) = false ∧ Instr.wellFormed (.mul 0 8) = false ∧
    Instr.wellFormed (.push 255) = false ∧ Instr.wellFormed (.pop 200) = false := by decide

theorem test_wellFormed_accepts :
    Instr.wellFormed (.ldi 7 255) = true ∧ Instr.wellFormed .hlt = true ∧
    Instr.wellFormed (.mul 7 0) = true := by decide

/-! ### Decoding: words written out from 30_encoding R44 and R47, bit by bit -/

theorem test_decode_ldi : decode [0b10000010, 0b00000000, 0b00001000] = .ok (.ldi 0 8) := by decide
theorem test_decode_prn : decode [0b01000111, 0b00000101, 0xFF] = .ok (.prn 5) := by decide
theorem test_decode_hlt : decode [0b00000001, 0x47] = .ok .hlt := by decide
theorem test_decode_mul : decode [0b10100010, 0b00000110, 0b00000001] = .ok (.mul 6 1) := by decide
theorem test_decode_push : decode [0b01000101, 0b00000111] = .ok (.push 7) := by decide
theorem test_decode_pop : decode [0b01000110, 0b11001000] = .ok (.pop 200) := by decide

/-- The neighbours of V-UNK-2 to V-UNK-13. -/
theorem test_decode_unknown :
    (([0x00, 0x02, 0x44, 0x48, 0x81, 0x83, 0xA0, 0xA1, 0xA3, 0xFF, 0x80, 0x40, 0xC2] : List Byte).all
      fun op => decode [op, 0, 0] == .error (.unknownOpcode op)) = true := by decide

theorem test_decode_missing :
    decode [] = .error (.missingByte 0) ∧ decode [0x46] = .error (.missingByte 1) ∧
    decode [0xA2, 0x09] = .error (.missingByte 2) := by decide

/-- The table's numbering: the first byte is bits 7..0. -/
theorem test_table_words :
    decodeTableWord 24 0x080082 = some (.ldi 0 8) ∧ decodeTableWord 8 0xA2 = some (.mul 0 0) ∧
    decodeTableWord 16 0x0345 = some (.push 3) ∧ decodeTableWord 8 0xA0 = none := by decide

theorem test_withFetchWord :
    nextSat (step (State.reset.withFetchWord 24 0xC80282)) (fun t => t.reg 2 == 0xC8 && t.pc == 3) = true := by
  decide

/-! ### One step per test (95_test_vectors, part 2) -/

/-- V-LDI-2: 0xFF is not sign-extended. -/
theorem test_ldi : nextSat (step (place 0 [0x82, 0x03, 0xFF])) (fun t => t.reg 3 == 0xFF && t.pc == 3) = true := by
  decide

/-- V-LDI-5: the last place a three-byte instruction fits. -/
theorem test_ldi_top : nextSat (step (place 253 [0x82, 0x03, 0x99])) (fun t => t.reg 3 == 0x99 && t.pc == 256) = true := by
  decide

/-- V-PRN-9: appended at the end. -/
theorem test_prn : nextSat (step (({ place 0 [0x47, 0x04] with out := [5] }).setReg 4 100))
    (fun t => t.out == [5, 100] && t.pc == 2) = true := by decide

/-- V-PRN-4: the stack pointer prints like any register. -/
theorem test_prn_sp : nextSat (step (place 0 [0x47, 0x07])) (fun t => t.out == [244]) = true := by decide

/-- V-HLT-2: HLT at address 255 does not fault. -/
theorem test_hlt_top :
    nextSat (step (place 255 [0x01])) (fun t => !t.run && t.pc == 256 && t.fault == none) = true := by decide

/-- V-MUL-2: 200 * 200 is 64. -/
theorem test_mul_wraps : nextSat (step (((place 0 [0xA2, 0x00, 0x01]).setReg 0 200).setReg 1 200))
    (fun t => t.reg 0 == 64 && t.reg 1 == 200) = true := by decide

/-- V-MUL-8: the stack pointer as destination. -/
theorem test_mul_sp : nextSat (step ((place 0 [0xA2, 0x07, 0x00]).setReg 0 2))
    (fun t => t.reg 7 == 0xE8 && t.reg 0 == 2) = true := by decide

/-- V-PUSH-2: the pointer wraps. -/
theorem test_push_wraps : nextSat (step (((place 0 [0x45, 0x00]).setReg 0 0x77).setReg 7 0))
    (fun t => t.reg 7 == 0xFF && t.mem.read 0xFF == 0x77 && t.reg 0 == 0x77) = true := by decide

/-- V-PUSH-3: PUSH R7 stores the decremented pointer. -/
theorem test_push_sp : nextSat (step (place 0 [0x45, 0x07]))
    (fun t => t.reg 7 == 0xF3 && t.mem.read 0xF3 == 0xF3) = true := by decide

/-- V-POP-9: the popped cell is the POP's own opcode byte. -/
theorem test_pop_own_byte : nextSat (step ((place 0 [0x46, 0x00]).setReg 7 0))
    (fun t => t.reg 0 == 0x46 && t.reg 7 == 1 && t.mem.read 0 == 0x46) = true := by decide

/-- V-POP-5: POP R7 leaves the popped value plus one, wrapping. -/
theorem test_pop_sp : nextSat (step (((place 0 [0x46, 0x07]).setReg 7 0x80).setCell 0x80 0xFF))
    (fun t => t.reg 7 == 0) = true := by decide

/-- V-ADD-2 and V-ADD-7, on the unit alone. -/
theorem test_alu_add :
    (alu .add 0 1 ((State.reset.setReg 0 200).setReg 1 100)).toOption.map (fun t => t.reg 0) = some 44 ∧
    (alu .add 7 3 (State.reset.setReg 3 1)).toOption.map (fun t => t.reg 7) = some 0xF5 := by decide

/-- V-UNK-14, V-MUL-12, V-FLT-1, V-MUL-10, V-FLT-6, V-PUSH-4: which fault, in the order of 60_exceptions R87. -/
theorem test_fault_priority :
    latches (place 255 [0x00]) (.unknownInstruction 0x00 255) = true ∧
    latches (place 254 [0xA2, 0x09]) (.memoryAddressOutOfRange 256 254) = true ∧
    latches (place 256 []) (.memoryAddressOutOfRange 256 256) = true ∧
    latches (place 253 [0xA2, 0x09, 0x0A]) (.registerIndexOutOfRange 9 253) = true ∧
    latches (place 0 [0xA2, 0x00, 0x0A]) (.registerIndexOutOfRange 10 0) = true ∧
    latches (place 0 [0x45, 0x08]) (.registerIndexOutOfRange 8 0) = true := by decide

/-! ### The host's side -/

/-- V-LOAD-2 and V-LOAD-4. -/
theorem test_loader :
    loader ['\n', ' ', ' ', '0', '0', '0', '0', '0', '0', '0', '1', ' ', '\n', 'h', 'i', '\n', '#', '\n', '1'] =
      some [0x01, 0x01] ∧
    loader ['1', '0', '0', '0', '0', '0', '0', '0', '0'] = none := by decide

/-- 42_output_and_halt R66: "PRN: 30". -/
theorem test_render : render 30 = ['P', 'R', 'N', ':', ' ', '3', '0'] := by decide

/-- 60_exceptions R95 and decision D13: a cell above 255 is absent. -/
theorem test_trace :
    (place 255 [0x47]).traceView.cells = [some 0x47, none, none] ∧
    ((place 255 [0x47]).traceView.text.take 8) = ['F', 'F', ' ', '4', '7', ' ', '-', '-'] ∧
    State.reset.traceIf Config.tracePresent = none := by decide

/-- 70_reset_and_hazards R102, V-RUN-1, with the status of decision D15; and the launch without a path. -/
theorem test_commandLine :
    (commandLine (some [])).exitStatus = some 1 ∧ (commandLine none).exitStatus = some 1 ∧
    (commandLine (some ['1'])).exitStatus = some 0 := by decide

/-! ### Witnesses: for every statement with hypotheses, states and operands that meet them, clause by clause -/

theorem witness_StepRunsTheEncodedInstruction :
    (place 253 [0x82, 0x07, 0xFF]).running ∧ (253 : Pc).toNat + Instr.width (.ldi 7 255) ≤ 256 ∧
    (∀ k, k < Instr.width (.ldi 7 255) →
      (place 253 [0x82, 0x07, 0xFF]).mem.read (253 + k) = (encode (.ldi 7 255)).getD k 0) := by decide

theorem witness_StepIsDecodeThenExec :
    (place 255 [0x01]).running ∧ decode (place 255 [0x01]).cellsFromPc = .ok .hlt ∧
    decode (place 255 [0x00]).cellsFromPc = .error (.unknownOpcode 0) ∧
    decode (place 255 [0x47]).cellsFromPc = .error (.missingByte 1) ∧
    decode (place 256 []).cellsFromPc = .error (.missingByte 0) := by decide

theorem witness_EndedStatesStop :
    (State.reset.latch (.unknownInstruction 0 0)).fault = some (.unknownInstruction 0 0) ∧
    (State.reset.halt.run = false ∧ State.reset.halt.fault = none) ∧
    stopsWith (step State.reset.halt) .halted = true := by decide

theorem witness_UnknownOpcodeLatches :
    (place 255 [0xA0]).running ∧ (place 255 [0xA0]).pc.toNat ≤ 255 ∧
    (place 255 [0xA0]).opcodeByte ∉ ([0x01#8, 0x45#8, 0x46#8, 0x47#8, 0x82#8, 0xA2#8] : List Byte) := by decide

/-- The three rows of 60_exceptions R84, and the neighbour of the third, which completes. -/
theorem witness_MemoryFaultsAreTheThreeCases :
    latches (place 256 []) (.memoryAddressOutOfRange 256 256) = true ∧
    latches (place 255 [0x46]) (.memoryAddressOutOfRange 256 255) = true ∧
    latches (place 254 [0x82, 0x08]) (.memoryAddressOutOfRange 256 254) = true ∧
    nextSat (step (place 254 [0x47, 0x00])) (fun t => t.fault == none) = true := by decide

/-- A running state for each clause of the chain: fetch, unknown, operand a, operand b, index a, index b, none. -/
theorem witness_FirstFaultInPriorityOrder :
    ((place 256 []).running ∧ (place 256 []).pc.toNat = 256) ∧
    ((place 255 [0x00]).running ∧ (place 255 [0x00]).opcodeByte ∉ tableOpcodes) ∧
    ((place 255 [0x45]).running ∧ (place 255 [0x45]).opcodeByte ∈ opcodesWithA) ∧
    ((place 254 [0xA2, 9]).running ∧ (place 254 [0xA2, 9]).opcodeByte ∈ opcodesWithB) ∧
    ((place 254 [0x47, 8]).running ∧ 7 < (place 254 [0x47, 8]).byteA.toNat) ∧
    ((place 253 [0xA2, 7, 8]).running ∧ (place 253 [0xA2, 7, 8]).byteA.toNat ≤ 7 ∧
      7 < (place 253 [0xA2, 7, 8]).byteB.toNat) ∧
    ((place 253 [0xA2, 7, 7]).running ∧ (place 253 [0xA2, 7, 7]).byteB.toNat ≤ 7) := by decide

/-- The clause on a latched record is met: a step latches one. -/
theorem witness_FirstFaultInPriorityOrder_latched :
    ∃ t, step (place 255 [0x00]) = .next t ∧ t.fault ≠ none := ⟨_, rfl, by decide⟩

theorem witness_FaultsArePrecise :
    ∃ t, step (place 254 [0x47, 8]) = .next t ∧ t.fault = some (.registerIndexOutOfRange 8 254) := ⟨_, rfl, rfl⟩

theorem witness_MemWriteContract : 255 < 256 ∧ (255 : Nat) ≤ 255 ∧ (0 : Nat) ≤ 255 := by decide

/-- Both register contracts: the first index that is none, and registers 0 and 7. -/
theorem witness_RegisterContracts :
    7 < (8 : Byte).toNat ∧ (7 : Byte).toNat = (7 : RegIndex).val ∧ (0 : Byte).toNat = (0 : RegIndex).val := by decide

theorem witness_UnsupportedAluOperationIsDefensive :
    ∃ t, step (place 0 [0xA2, 0, 1]) = .next t ∧ t.fault = none := ⟨_, rfl, rfl⟩

/-- The completion statements of LDI, PRN, MUL, PUSH and POP: the bytes 0, 6 and 7 name registers. -/
theorem witness_Completions :
    (0 : Byte).toNat = (0 : RegIndex).val ∧ (6 : Byte).toNat = (6 : RegIndex).val ∧
    (7 : Byte).toNat = (7 : RegIndex).val ∧ (6 : RegIndex) ≠ 7 ∧
    nextSat (exec (.push 7) State.reset) (fun t => t.mem.read 0xF3 == t.sp) = true ∧
    nextSat (exec (.pop 7) State.reset) (fun t => t.sp == 1) = true ∧
    nextSat (exec (.pop 6) State.reset) (fun t => t.sp == 0xF5) = true := by decide

theorem witness_RegisterIndexFaults :
    7 < (8 : Byte).toNat ∧ 7 < (255 : Byte).toNat ∧ ((7 : Byte).toNat ≤ 7 ∧ 7 < (8 : Byte).toNat) ∧
    ([.ldi 7 0, .prn 7, .hlt, .mul 7 7, .push 7, .pop 7] : List Instr).all Instr.wellFormed = true := by decide

/-- LdiStep: addresses 255, 254 and 253, the last with a bad and a good index. -/
theorem witness_LdiStep :
    ([place 255 [0x82], place 254 [0x82, 8], place 253 [0x82, 8, 1], place 253 [0x82, 7, 1]] : List State).all
      (fun s => s.run && s.fault == none && decide (s.pc.toNat ≤ 255) && s.opcodeByte == 0x82) = true ∧
    254 ≤ (place 254 [0x82, 8]).pc.toNat ∧ 7 < (place 253 [0x82, 8, 1]).byteA.toNat ∧
    ¬ 7 < (place 253 [0x82, 7, 1]).byteA.toNat := by decide

/-- PrnStep, PushStep, PopStep: addresses 255 and 254, the second with a bad and a good index. -/
theorem witness_OneOperandSteps :
    (([0x47, 0x45, 0x46] : List Byte).flatMap fun op =>
      [place 255 [op], place 254 [op, 8], place 254 [op, 7], place 254 [op, 6]]).all
      (fun s => s.run && s.fault == none && decide (s.pc.toNat ≤ 255) &&
        (s.opcodeByte == 0x47 || s.opcodeByte == 0x45 || s.opcodeByte == 0x46)) = true ∧
    (place 255 [0x46]).pc.toNat = 255 ∧ 7 < (place 254 [0x46, 8]).byteA.toNat ∧
    (place 254 [0x46, 7]).byteA.toNat = 7 ∧ (place 254 [0x46, 6]).byteA.toNat ≠ 7 := by decide

theorem witness_HltStep :
    (place 255 [0x01]).running ∧ (place 255 [0x01]).pc.toNat ≤ 255 ∧ (place 255 [0x01]).opcodeByte = 0x01 := by decide

/-- MulStep: addresses 255, 254 and 253, the last with a bad first, a bad second and two good indices. -/
theorem witness_MulStep :
    ([place 255 [0xA2], place 254 [0xA2, 8], place 253 [0xA2, 8, 8], place 253 [0xA2, 7, 8],
      place 253 [0xA2, 7, 7]] : List State).all
      (fun s => s.run && s.fault == none && decide (s.pc.toNat ≤ 255) && s.opcodeByte == 0xA2) = true ∧
    7 < (place 253 [0xA2, 8, 8]).byteA.toNat ∧
    (¬ 7 < (place 253 [0xA2, 7, 8]).byteA.toNat ∧ 7 < (place 253 [0xA2, 7, 8]).byteB.toNat) ∧
    ((7 : RegIndex).val = (place 253 [0xA2, 7, 7]).byteA.toNat ∧
      (7 : RegIndex).val = (place 253 [0xA2, 7, 7]).byteB.toNat) := by decide

/-- LdiThenPrnEmits, PushThenPopCarries, RegisterSevenOnTheStack, PushesLowerThePointer. -/
theorem witness_SequenceLaws :
    (7 : Byte).toNat ≤ 7 ∧ ((0 : Byte).toNat = (0 : RegIndex).val ∧ (0 : RegIndex) ≠ 7) ∧
    ((6 : Byte).toNat = (6 : RegIndex).val ∧ (6 : RegIndex) ≠ 7) ∧
    (∀ a ∈ ([0, 7, 6] : List Byte), a.toNat ≤ 7) := by decide

/-- A PUSH at address 0 with the pointer at 3: the store lands on the next opcode, and is a HLT. -/
theorem witness_StoreIsSeenByTheNextFetch :
    let s := ((place 0 [0x45, 0x00]).setReg 0 1).setReg 7 3
    s.running ∧ s.opcodeByte = 0x45 ∧ s.byteA.toNat = (0 : RegIndex).val ∧ (0 : RegIndex) ≠ 7 ∧
    (s.sp.toNat + 255) % 256 = s.pc.toNat + 2 ∧ s.reg 0 = 0x01 := by decide

/-- The statements about every step (pc, RUN, OUT, memory, registers): a completed PRN, a HLT, a PUSH, and a fault. -/
theorem witness_StepWriters :
    (∃ t, step (place 0 [0x47, 0]) = .next t ∧ t.fault = none ∧ (place 0 [0x47, 0]).opcodeByte = 0x47#8) ∧
    (∃ t, step (place 255 [0x01]) = .next t ∧ t.run = false) ∧
    (∃ t, step (place 0 [0x45, 0]) = .next t ∧ t.reg 7 ≠ (place 0 [0x45, 0]).reg 7) ∧
    (∃ t, step (place 0 [0x82, 3, 1]) = .next t ∧ t.reg 3 ≠ (place 0 [0x82, 3, 1]).reg 3) ∧
    (∃ t, step (place 255 [0x47]) = .next t ∧ t.fault ≠ none) :=
  ⟨⟨_, rfl, rfl, rfl⟩, ⟨_, rfl, rfl⟩, ⟨_, rfl, by decide⟩, ⟨_, rfl, by decide⟩, ⟨_, rfl, by decide⟩⟩

/-- A POP and a memory that differs from its own outside the instruction and the popped cell. -/
theorem witness_StepReadsOnlyItsOwnCells :
    let s := place 0 [0x46, 0x01]
    let m := s.mem.write 0x80 0x55
    s.running ∧ m ≠ s.mem ∧
    (∀ k, k < tableWidth s.opcodeByte → m.read (s.pc.toNat + k) = s.mem.read (s.pc.toNat + k)) ∧
    (s.opcodeByte = 0x46 → m.read s.sp.toNat = s.mem.read s.sp.toNat) := by decide

/-- A program of three bytes is launched; one of 257 is refused (ResetValues, InvariantAtReset, ProgramLoad). -/
theorem witness_Launch :
    (∃ s, launch [0x82, 0x00, 0x08] = some s) ∧ ([0x82, 0x00, 0x08] : List Byte).length ≤ 256 ∧
    256 < (List.replicate 257 (0 : Byte)).length ∧ (List.replicate 256 (0 : Byte)).length ≤ 256 :=
  ⟨⟨_, rfl⟩, by decide, by rw [List.length_replicate]; decide, by rw [List.length_replicate]⟩

/-- A state that meets the invariant and steps to a next state. -/
theorem witness_StepKeepsTheInvariant :
    State.reset.Inv ∧ ∃ t, step State.reset = .next t :=
  ⟨⟨by simp [State.reset, Memory.wf], by decide, fun _ h => (nomatch h), fun h => (nomatch h)⟩, _, rfl⟩

theorem witness_EveryRunEnds : State.reset.running ∧ (129 : Nat) ≤ 129 := by decide

/-- The clause on a halted run is met: HLT at address 255. -/
theorem witness_EveryRunEnds_halted :
    (place 255 [0x01]).running ∧ (runLoop 129 (place 255 [0x01])).run = false := by decide

theorem witness_RunningOffTheProgramFaults :
    ((place 255 [0x00]).running ∧ (place 255 [0x00]).pc.toNat ≤ 255 ∧ (place 255 [0x00]).opcodeByte = 0x00) ∧
    ((place 256 []).running ∧ (place 256 []).pc = 256) := by decide

theorem witness_OutcomeAtTheEnd :
    State.reset.running ∧ State.reset.halt.succeeded ∧
    (State.reset.latch (.unknownInstruction 0 0)).fault ≠ none := by decide

theorem witness_TraceViewShowsTheState :
    (2 : Nat) < 3 ∧ 255 < (place 254 []).pc.toNat + 2 ∧ ¬ 255 < (place 254 []).pc.toNat + 1 := by decide

end Sys2Proof.Tests
end

section
/-! The state of CORE: what a step leaves of each of its parts, and the invariant of the reachable states (10_state). -/

namespace Sys2Proof.Machine

open Sys2Proof

variable {s t : State}

/-! ### Program load -/

/-- A load answers a state exactly when the bytes fit, and changes memory only (70_reset_and_hazards R99). -/
theorem State.loadProgram_eq_some_iff (bytes : List Byte) :
    s.loadProgram bytes = some t ↔
      bytes.length ≤ 256 ∧ t = { s with mem := s.mem.writeBytes Config.loadBase bytes } := by
  by_cases h : bytes.length ≤ 256
  · simp [State.loadProgram, h, eq_comm]
  · simp [State.loadProgram, h, Nat.lt_of_not_le h]

/-- Every cell of reset memory holds 0x00. -/
@[simp] theorem State.reset_mem_read (a : Nat) : State.reset.mem.read a = 0x00#8 := rfl

/-- Program bytes loaded into reset memory stand from cell 0, and every other cell holds 0x00. -/
theorem read_reset_writeBytes (bytes : List Byte) (a : Nat) :
    (State.reset.mem.writeBytes Config.loadBase bytes).read a = bytes.getD a 0x00#8 := by
  rw [Memory.read_writeBytes]
  by_cases h : a < bytes.length
  · simp [h]
  · simp [h]

/-! ### The record of a faulting step -/

/-- A record speaks of the pc and of memory only, so it fits the state that latches it just as well. -/
theorem FaultRecord.fits_latch (q r : FaultRecord) : r.fits (s.latch q) ↔ r.fits s := by
  cases r <;> exact Iff.rfl

/-- In a step that ends with a fault the latch is the whole change. -/
theorem StepCase.eq_latch {r : FaultRecord} (hc : StepCase s t) (hs : s.fault = none)
    (hf : t.fault = some r) : t = s.latch r := by
  cases hc with
  | ldi | prn | hlt | mul | push | pop => exact nomatch hs.symm.trans hf
  | _ => cases hf; rfl

/-- The record a step latches fits the instruction at the pc (60_exceptions R81). -/
theorem StepCase.fits {r : FaultRecord} (hc : StepCase s t) (hs : s.fault = none)
    (hle : s.pc.toNat ≤ 256) (hf : t.fault = some r) : r.fits s := by
  cases hc with
  | pastEnd hp =>
    have h256 : s.pc.toNat = 256 := by omega
    cases hf; exact ⟨rfl, h256, .inl h256⟩
  | unknown hp ho => cases hf; exact ⟨rfl, hp, rfl, ho⟩
  | missingA hp ho => cases hf; exact ⟨rfl, rfl, .inr (.inl ⟨hp, ho⟩)⟩
  | missingB hp ho => cases hf; exact ⟨rfl, rfl, .inr (.inr ⟨hp, ho⟩)⟩
  | badA hp ho _ ha => cases hf; exact ⟨rfl, hp, ha, .inl ⟨ho, rfl⟩⟩
  | badB hp ho ha hb => cases hf; exact ⟨rfl, by omega, hb, .inr ⟨ho, ha, rfl⟩⟩
  | ldi | prn | hlt | mul | push | pop => exact nomatch hs.symm.trans hf

/-! ### The pc -/

/-- A step that completes moves the pc by the width of its instruction, and to 256 at most. -/
theorem StepCase.pc_of_completed (hc : StepCase s t) (hf : t.fault = none) :
    s.opcodeByte ∈ tableOpcodes ∧ t.pc.toNat = s.pc.toNat + tableWidth s.opcodeByte ∧
      t.pc.toNat ≤ 256 := by
  have moved (u : State) (w : Nat) (hu : u.pc = s.pc) (hw : tableWidth s.opcodeByte = w)
      (hle : s.pc.toNat + w ≤ 256) :
      (u.advance w).pc.toNat = s.pc.toNat + tableWidth s.opcodeByte ∧ (u.advance w).pc.toNat ≤ 256 := by
    rw [advance_pc_toNat u w (by rw [hu]; omega), hu, hw]
    exact ⟨rfl, hle⟩
  cases hc with
  | ldi _ hp ho | mul _ _ hp ho | prn _ hp ho | push _ hp ho | pop _ hp ho | hlt hp ho =>
    exact ⟨by rw [ho]; decide, moved _ _ rfl (by rw [ho]; decide) (by omega)⟩
  | _ => exact nomatch hf

/-- The widths of the table, opcode by opcode. -/
theorem tableWidth_of_mem {op : Byte} (h : op ∈ tableOpcodes) :
    tableWidth op =
      if op = 0x01#8 then 1 else if op = 0x47#8 ∨ op = 0x45#8 ∨ op = 0x46#8 then 2 else 3 := by
  simp only [tableOpcodes, List.mem_cons, List.not_mem_nil, or_false] at h
  rcases h with rfl | rfl | rfl | rfl | rfl | rfl <;> decide

/-- A step keeps the pc within 0 to 256. -/
theorem StepCase.pc_le (hc : StepCase s t) (hs : s.fault = none) (hle : s.pc.toNat ≤ 256) :
    t.pc.toNat ≤ 256 := by
  cases hf : t.fault with
  | none => obtain ⟨_, _, hle'⟩ := hc.pc_of_completed hf; exact hle'
  | some r => rw [hc.eq_latch hs hf]; exact hle

/-! ### RUN -/

/-- A HLT within memory always completes (42_output_and_halt R67). -/
theorem StepCase.eq_of_hlt (hc : StepCase s t) (hp : s.pc.toNat ≤ 255) (ho : s.opcodeByte = 0x01#8) :
    t = s.halt.advance 1 := by
  cases hc with
  | hlt => rfl
  | pastEnd hp' => omega
  | unknown _ ho' | missingA _ ho' | missingB _ ho' | badA _ ho' => rw [ho] at ho'; exact absurd ho' (by decide)
  | badB _ ho' | ldi _ _ ho' | prn _ _ ho' | mul _ _ _ ho' | push _ _ ho' | pop _ _ ho' =>
    exact absurd (ho.symm.trans ho') (by decide)

/-- A step that clears RUN executed a HLT. -/
theorem StepCase.hlt_of_run_false (hc : StepCase s t) (hs : s.run = true) (ht : t.run = false) :
    s.pc.toNat ≤ 255 ∧ s.opcodeByte = 0x01#8 := by
  cases hc with
  | hlt hp ho => exact ⟨hp, ho⟩
  | _ => exact nomatch hs.symm.trans ht

/-- After a step that clears RUN a HLT stands just below the pc (40_dispatch_loop R63). -/
theorem StepCase.hlt_below_pc (hc : StepCase s t) (hs : s.run = true) (ht : t.run = false) :
    1 ≤ t.pc.toNat ∧ t.mem.read (t.pc.toNat - 1) = 0x01#8 := by
  obtain ⟨hp, ho⟩ := hc.hlt_of_run_false hs ht
  have hpc : t.pc.toNat = s.pc.toNat + 1 := by
    rw [hc.eq_of_hlt hp ho]; exact advance_pc_toNat s.halt 1 (by rw [State.halt_pc]; omega)
  have hmem : t.mem = s.mem := by rw [hc.eq_of_hlt hp ho]; rfl
  exact ⟨by omega, by rw [hpc, hmem]; exact ho⟩

/-! ### Memory and the invariant -/

/-- A step keeps memory canonical: PUSH alone stores, at the byte the stack pointer holds. -/
theorem StepCase.mem_wf (hc : StepCase s t) (hm : s.mem.wf) : t.mem.wf := by
  cases hc with
  | push => exact State.setCell_wf _ _ _ hm (narrow _).isLt
  | _ => exact hm

/-- The reset state satisfies the invariant with any canonical memory: it is neither halted nor faulted. -/
theorem inv_of_reset_with_mem {m : Memory} (hm : m.wf) : ({ State.reset with mem := m } : State).Inv :=
  ⟨hm, Nat.zero_le 256, fun _ h => (nomatch h), fun h => (nomatch h)⟩

/-- The invariant over one step. -/
theorem StepCase.inv (hc : StepCase s t) (hr : s.running) (hi : s.Inv) : t.Inv := by
  obtain ⟨hrun, hnone⟩ := hr
  refine ⟨hc.mem_wf hi.memory, hc.pc_le hnone hi.pcRange, fun r hf => ?_, hc.hlt_below_pc hrun⟩
  have hfits := hc.fits hnone hi.pcRange hf
  rw [hc.eq_latch hnone hf]
  exact ⟨hrun, (FaultRecord.fits_latch r r).mpr hfits⟩

/-! ### OUT -/

/-- A PRN that completes appends the register its operand byte names (42_output_and_halt R65). -/
theorem StepCase.out_of_prn (hc : StepCase s t) (hf : t.fault = none) (ho : s.opcodeByte = 0x47#8) :
    ∃ r : RegIndex, r.val = s.byteA.toNat ∧ t.out = s.out ++ [s.reg r] := by
  cases hc with
  | prn r _ _ ha => exact ⟨r, ha.symm, rfl⟩
  | ldi _ _ ho' | mul _ _ _ ho' | push _ _ ho' | pop _ _ ho' | hlt _ ho' =>
    exact absurd (ho.symm.trans ho') (by decide)
  | _ => exact nomatch hf

/-- Every step but a completed PRN leaves OUT as it is. -/
theorem StepCase.out_of_not_prn (hc : StepCase s t) (hs : s.fault = none)
    (h : ¬ (t.fault = none ∧ s.opcodeByte = 0x47#8)) : t.out = s.out := by
  cases hc with
  | prn _ _ ho => exact absurd ⟨hs, ho⟩ h
  | _ => rfl

/-- What stood in OUT before a step stands at its front after it. -/
theorem StepCase.out_prefix (hc : StepCase s t) : s.out <+: t.out := by
  cases hc with
  | prn => exact List.prefix_append ..
  | _ => exact List.prefix_rfl

/-- A run goes on from the state a step answers. -/
theorem runLoop_succ_of_next (n : Nat) (h : step s = .next t) : runLoop (n + 1) s = runLoop n t := by
  simp [runLoop, h]

/-- A run stays in a state that answers no next state. -/
theorem runLoop_of_stopped (n : Nat) (h : ∀ t, step s ≠ .next t) : runLoop n s = s := by
  cases n with
  | zero => rfl
  | succ n =>
    cases hs : step s with
    | next t => exact absurd hs (h t)
    | fault | refused => simp [runLoop, hs]

/-! ### The registers -/

/-- A register that a register write changed is the one written. -/
theorem State.eq_of_setReg_reg_ne {i j : RegIndex} {v : Nat} (h : (s.setReg i v).reg j ≠ s.reg j) : j = i := by
  by_contra hne
  simp [hne] at h

/-- A register that a step changed is one its instruction's row names (10_state R14). -/
theorem StepCase.opcode_of_reg_ne (hc : StepCase s t) {j : RegIndex} (h : t.reg j ≠ s.reg j) :
    (s.opcodeByte = 0x82#8 ∧ j.val = s.byteA.toNat) ∨
    (s.opcodeByte = 0xA2#8 ∧ j.val = s.byteA.toNat) ∨
    (s.opcodeByte = 0x45#8 ∧ j = 7) ∨
    (s.opcodeByte = 0x46#8 ∧ (j.val = s.byteA.toNat ∨ j = 7)) := by
  cases hc with
  | ldi r _ ho ha =>
    cases State.eq_of_setReg_reg_ne h
    exact .inl ⟨ho, ha.symm⟩
  | mul ra _ _ ho ha =>
    cases State.eq_of_setReg_reg_ne h
    exact .inr (.inl ⟨ho, ha.symm⟩)
  | push _ _ ho => exact .inr (.inr (.inl ⟨ho, State.eq_of_setReg_reg_ne h⟩))
  | pop r _ ho ha =>
    refine .inr (.inr (.inr ⟨ho, ?_⟩))
    by_cases h7 : j = 7
    · exact .inr h7
    · have hr : j = r := by
        by_contra hne
        simp [h7, hne] at h
      exact .inl (by rw [hr, ha])
  | _ => exact absurd rfl h

/-! ### The obligations -/

/-- Settles O45: a step starts in a running state, and each field of the invariant has its lemma over the twelve
cases of a step. -/
theorem stepKeepsTheInvariant : Obligations.StepKeepsTheInvariant := by
  intro s t hi h
  obtain ⟨hr, hc⟩ := case_of_step s h
  exact hc.inv hr hi

/-- Settles O37: a fault leaves the latch as the only change, and a completed step advances by the table's width. -/
theorem pcAdvancesByTheWidth : Obligations.PcAdvancesByTheWidth := by
  refine ⟨rfl, fun s t h => ?_⟩
  obtain ⟨⟨_, hnone⟩, hc⟩ := case_of_step s h
  constructor
  · intro hf
    obtain ⟨hop, hpc, _⟩ := hc.pc_of_completed hf
    rw [hpc, tableWidth_of_mem hop]
  · intro hf
    obtain ⟨r, hr⟩ := Option.ne_none_iff_exists'.mp hf
    rw [hc.eq_latch hnone hr, State.latch_pc]

/-- Settles O38: HLT always completes, and no other case of a step writes RUN. -/
theorem onlyHltClearsRun : Obligations.OnlyHltClearsRun := by
  refine ⟨rfl, fun s t h => ?_⟩
  obtain ⟨⟨hrun, hnone⟩, hc⟩ := case_of_step s h
  refine ⟨⟨hc.hlt_of_run_false hrun, fun ⟨hp, ho⟩ => ?_⟩, fun hf => ?_⟩
  · rw [hc.eq_of_hlt hp ho, State.advance_run, State.halt_run]
  · obtain ⟨r, hr⟩ := Option.ne_none_iff_exists'.mp hf
    rw [hc.eq_latch hnone hr, State.latch_run, hrun]

/-- Settles O39: of the twelve cases of a step a completed PRN alone writes OUT. -/
theorem onlyPrnWritesOut : Obligations.OnlyPrnWritesOut := by
  refine ⟨rfl, fun s t h => ?_⟩
  obtain ⟨⟨_, hnone⟩, hc⟩ := case_of_step s h
  exact ⟨fun ⟨hf, ho⟩ => hc.out_of_prn hf ho, hc.out_of_not_prn hnone⟩

/-- Settles O41: case by case, the registers a step writes. -/
theorem registersWrittenByEachRow : Obligations.RegistersWrittenByEachRow := by
  intro s t j h hne
  obtain ⟨_, hc⟩ := case_of_step s h
  exact hc.opcode_of_reg_ne hne

/-- Settles O47, by induction on the number of steps. -/
theorem outputOnlyGrows : Obligations.OutputOnlyGrows := by
  intro n
  induction n with
  | zero => exact fun s => List.prefix_rfl
  | succ n ih =>
    intro s
    by_cases h : ∃ t, step s = .next t
    · obtain ⟨t, ht⟩ := h
      rw [runLoop_succ_of_next n ht]
      exact (case_of_step s ht).2.out_prefix.trans (ih t)
    · rw [runLoop_of_stopped (n + 1) (not_exists.mp h)]

/-- Settles O14, by the two outcomes of the index check. -/
theorem registerReadContract : Obligations.RegisterReadContract := by
  intro s i
  refine ⟨fun h => ?_, fun r h => ?_⟩
  · rw [readReg, ← regOperand, regOperand_error s i h, except_bind_error]
  · rw [readReg, ← regOperand, regOperand_ok s i r h, except_bind_ok]

/-- Settles O15, by the two outcomes of the index check. -/
theorem registerWriteContract : Obligations.RegisterWriteContract := by
  intro s i v
  refine ⟨fun h => ?_, fun r h =>
    ⟨s.setReg r v, ?_, by simp, fun j hj => by simp [hj], rfl, rfl, rfl, rfl, rfl⟩⟩
  · rw [writeReg, ← regOperand, regOperand_error s i h, except_bind_error]
  · rw [writeReg, ← regOperand, regOperand_ok s i r h, except_bind_ok]

/-- Settles O43: the eight registers by evaluation, the loaded cells by the read over a run of written bytes. -/
theorem resetValues : Obligations.ResetValues := by
  refine ⟨fun a _ => State.reset_mem_read a, by decide, rfl, rfl, rfl, rfl, fun bytes hle => ?_⟩
  refine ⟨_, (State.loadProgram_eq_some_iff bytes).mpr ⟨hle, rfl⟩, fun a _ => read_reset_writeBytes bytes a, ?_⟩
  exact ⟨rfl, rfl, rfl, rfl, rfl, rfl⟩

/-- Settles O44: a load writes within the address space of canonical memory and changes nothing else. -/
theorem invariantAtReset : Obligations.InvariantAtReset := by
  refine ⟨inv_of_reset_with_mem reset_memory_wf, fun bytes s h => ?_⟩
  obtain ⟨hle, rfl⟩ := (State.loadProgram_eq_some_iff bytes).mp h
  exact inv_of_reset_with_mem (Memory.writeBytes_wf bytes _ _ reset_memory_wf (by simpa using hle))

end Sys2Proof.Machine
end

section
/-! Memory: the two access primitives, which steps store and where, and which cells a step reads (20_memory). -/

namespace Sys2Proof.Machine

open Sys2Proof

variable {s t : State} {m : Memory}

/-! ### The twelve cases determine the step -/

/-- The lookup knows no byte outside the table. -/
theorem decodeOpcode_of_not_mem {op : Byte} (h : op ∉ tableOpcodes) : decodeOpcode op = none := by
  rcases decodeOpcode_cases op with ⟨_, hd⟩ | ⟨rfl, _⟩ | ⟨rfl, _⟩ | ⟨rfl, _⟩ | ⟨rfl, _⟩ | ⟨rfl, _⟩ | ⟨rfl, _⟩
  · exact hd
  all_goals exact absurd (by decide) h

/-- A byte with a first operand is the opcode of another instruction than HLT. -/
theorem decodeOpcode_of_mem_opcodesWithA {op : Byte} (h : op ∈ opcodesWithA) :
    ∃ k, k ≠ .hlt ∧ decodeOpcode op = some k := by
  simp only [opcodesWithA, List.mem_cons, List.not_mem_nil, or_false] at h
  rcases h with rfl | rfl | rfl | rfl | rfl <;> exact ⟨_, by decide, rfl⟩

/-- A byte with a second operand is the opcode of LDI or of MUL. -/
theorem decodeOpcode_of_mem_opcodesWithB {op : Byte} (h : op ∈ opcodesWithB) :
    decodeOpcode op = some .ldi ∨ decodeOpcode op = some .mul := by
  simp only [opcodesWithB, List.mem_cons, List.not_mem_nil, or_false] at h
  rcases h with rfl | rfl
  · exact .inl rfl
  · exact .inr rfl

/-- An instruction fetched whole whose first operand byte names no register latches that byte. -/
theorem cycle_of_bad_a (hp : s.pc.toNat ≤ 254) (ho : s.opcodeByte ∈ opcodesWithA)
    (hb : s.opcodeByte ∈ opcodesWithB → s.pc.toNat ≤ 253) (ha : 7 < s.byteA.toNat) :
    s.cycle = .next (s.latch (.registerIndexOutOfRange s.byteA s.pc)) := by
  obtain ⟨hldi, hprn, hpush, hpop⟩ := exec_one_error s s.byteA s.byteB ha
  obtain ⟨fprn, fpush, fpop⟩ := fetch_one s hp
  simp only [opcodesWithA, List.mem_cons, List.not_mem_nil, or_false] at ho
  rcases ho with ho | ho | ho | ho | ho
  · rw [cycle_ok s ((fetch_two s (hb (by rw [ho]; decide))).1 (by rw [ho]; rfl)), hldi]
  · rw [cycle_ok s (fprn (by rw [ho]; rfl)), hprn]
  · rw [cycle_ok s ((fetch_two s (hb (by rw [ho]; decide))).2 (by rw [ho]; rfl)), exec_mul_error_a s _ _ ha]
  · rw [cycle_ok s (fpush (by rw [ho]; rfl)), hpush]
  · rw [cycle_ok s (fpop (by rw [ho]; rfl)), hpop]

/-- The converse of `cycle_case`: each of the twelve cases names the next state of the cycle. -/
theorem StepCase.cycle_eq (hc : StepCase s t) : s.cycle = .next t := by
  cases hc with
  | pastEnd hp => exact cycle_error s (fetch_past_end s hp)
  | unknown hp ho => exact cycle_error s (fetch_unknown s hp (decodeOpcode_of_not_mem ho))
  | missingA hp ho =>
    obtain ⟨k, hk, hd⟩ := decodeOpcode_of_mem_opcodesWithA ho
    exact cycle_error s (fetch_missing_a s hp k hk hd)
  | missingB hp ho => exact cycle_error s (fetch_missing_b s hp (decodeOpcode_of_mem_opcodesWithB ho))
  | badA hp ho hb ha => exact cycle_of_bad_a hp ho hb ha
  | badB hp ho ha hb =>
    rw [cycle_ok s ((fetch_two s hp).2 (by rw [ho]; rfl))]
    exact exec_mul_error_b s _ _ ⟨s.byteA.toNat, by omega⟩ rfl hb
  | ldi r hp ho ha => rw [cycle_ok s ((fetch_two s hp).1 (by rw [ho]; rfl)), exec_ldi_ok s _ _ r ha]
  | prn r hp ho ha => rw [cycle_ok s ((fetch_one s hp).1 (by rw [ho]; rfl)), exec_prn_ok s _ r ha]
  | hlt hp ho => rw [cycle_ok s (fetch_hlt s hp (by rw [ho]; rfl)), exec_hlt]
  | mul ra rb hp ho ha hb =>
    rw [cycle_ok s ((fetch_two s hp).2 (by rw [ho]; rfl)), exec_mul_ok s _ _ ra rb ha hb]
  | push r hp ho ha => rw [cycle_ok s ((fetch_one s hp).2.1 (by rw [ho]; rfl)), exec_push_ok s _ r ha]
  | pop r hp ho ha => rw [cycle_ok s ((fetch_one s hp).2.2 (by rw [ho]; rfl)), exec_pop_ok s _ r ha]

/-- A step answers `t` exactly when the state runs and `t` is one of the twelve cases. -/
theorem step_eq_next_iff : step s = .next t ↔ s.running ∧ StepCase s t := by
  refine ⟨case_of_step s, fun ⟨⟨hrun, hnone⟩, hc⟩ => ?_⟩
  rw [step_of_running s hrun hnone, hc.cycle_eq]

/-! ### Which steps store, and where -/

/-- Every step but PUSH leaves memory as it is (20_memory R32). -/
theorem StepCase.mem_of_not_push (hc : StepCase s t) (h : s.opcodeByte ≠ 0x45#8) : t.mem = s.mem := by
  cases hc with
  | push _ _ ho => exact absurd ho h
  | _ => rfl

/-- A step stores into no other cell than the one below the stack pointer (44_stack R76). -/
theorem StepCase.read_mem_of_ne (hc : StepCase s t) {k : Nat} (hk : k ≠ (s.sp.toNat + 255) % 256) :
    t.mem.read k = s.mem.read k := by
  cases hc with
  | push => simp [exactDecrement, hk]
  | _ => rfl

/-! ### A store that the next fetch sees -/

/-- The state a completed PUSH of register `r` leaves (44_stack R76). -/
def State.afterPush (s : State) (r : RegIndex) : State :=
  ((s.setReg Config.spIndex (exactDecrement s.sp)).setCell (narrow (exactDecrement s.sp)).toNat
    ((s.setReg Config.spIndex (exactDecrement s.sp)).reg r).toNat).advance 2

/-- A running state with PUSH of a register that exists at the pc steps to `afterPush`. -/
theorem step_eq_afterPush (hrun : s.running) (hp : s.pc.toNat ≤ 254) (ho : s.opcodeByte = 0x45#8)
    {r : RegIndex} (ha : s.byteA.toNat = r.val) : step s = .next (s.afterPush r) :=
  step_eq_next_iff.mpr ⟨hrun, .push r hp ho ha⟩

theorem State.afterPush_pc_toNat (r : RegIndex) (hp : s.pc.toNat ≤ 254) :
    (s.afterPush r).pc.toNat = s.pc.toNat + 2 :=
  advance_pc_toNat _ 2 (by simp; omega)

/-- PUSH leaves the register's value as the next opcode byte when the cell it stores into is the one at its own pc. -/
theorem State.afterPush_opcodeByte {r : RegIndex} (hr : r ≠ 7) (hp : s.pc.toNat ≤ 254)
    (hcell : (s.sp.toNat + 255) % 256 = s.pc.toNat + 2) : (s.afterPush r).opcodeByte = s.reg r := by
  rw [State.opcodeByte, s.afterPush_pc_toNat r hp]
  simp [State.afterPush, exactDecrement, hcell, hr]

/-! ### Which cells a step reads -/

/-- The same state over another memory. -/
def State.withMem (s : State) (m : Memory) : State := { s with mem := m }

@[simp] theorem State.withMem_mem : (s.withMem m).mem = m := rfl
@[simp] theorem State.withMem_sp : (s.withMem m).sp = s.sp := rfl
@[simp] theorem State.withMem_reg (i : RegIndex) : (s.withMem m).reg i = s.reg i := rfl

/-- The memory `m` holds what `s` holds in the cells its step may read (20_memory R32): the bytes of the
instruction at the pc and, for POP, the cell at the stack pointer. -/
structure State.ReadsAlike (s : State) (m : Memory) : Prop where
  instr : ∀ k, k < tableWidth s.opcodeByte → m.read (s.pc.toNat + k) = s.mem.read (s.pc.toNat + k)
  popped : s.opcodeByte = 0x46#8 → m.read s.sp.toNat = s.mem.read s.sp.toNat

/-- An opcode with a first operand is at least two bytes wide. -/
theorem one_lt_tableWidth {op : Byte} (h : op ∈ opcodesWithA) : 1 < tableWidth op := by
  rw [tableWidth, if_pos h]
  split_ifs <;> decide

/-- An opcode with a second operand is three bytes wide. -/
theorem tableWidth_of_mem_opcodesWithB {op : Byte} (h : op ∈ opcodesWithB) : tableWidth op = 3 := if_pos h

/-- Every opcode byte is at least one byte wide. -/
theorem tableWidth_pos (op : Byte) : 0 < tableWidth op := by
  unfold tableWidth
  split_ifs <;> decide

theorem State.ReadsAlike.opcodeByte_eq (h : s.ReadsAlike m) : (s.withMem m).opcodeByte = s.opcodeByte :=
  h.instr 0 (tableWidth_pos _)

theorem State.ReadsAlike.byteA_eq (h : s.ReadsAlike m) (ho : s.opcodeByte ∈ opcodesWithA) :
    (s.withMem m).byteA = s.byteA :=
  h.instr 1 (one_lt_tableWidth ho)

theorem State.ReadsAlike.byteB_eq (h : s.ReadsAlike m) (ho : s.opcodeByte ∈ opcodesWithB) :
    (s.withMem m).byteB = s.byteB :=
  h.instr 2 (by rw [tableWidth_of_mem_opcodesWithB ho]; decide)

/-- A case of a step over the memory of `s` is the same case over any memory that reads alike, with a next state equal
but for memory; and a cell in which the two memories agreed is one in which they agree afterwards. -/
theorem StepCase.withMem (hc : StepCase s t) (h : s.ReadsAlike m) :
    ∃ n, StepCase (s.withMem m) (t.withMem n) ∧ ∀ k, m.read k = s.mem.read k → n.read k = t.mem.read k := by
  have hop := h.opcodeByte_eq
  cases hc with
  | pastEnd hp => exact ⟨m, .pastEnd hp, fun _ hk => hk⟩
  | unknown hp ho =>
    have hc' : StepCase (s.withMem m) _ := .unknown hp (by rwa [hop])
    rw [hop] at hc'
    exact ⟨m, hc', fun _ hk => hk⟩
  | missingA hp ho => exact ⟨m, .missingA hp (by rwa [hop]), fun _ hk => hk⟩
  | missingB hp ho => exact ⟨m, .missingB hp (by rwa [hop]), fun _ hk => hk⟩
  | badA hp ho hb ha =>
    have hc' : StepCase (s.withMem m) _ :=
      .badA hp (by rwa [hop]) (by rwa [hop]) (by rwa [h.byteA_eq ho])
    rw [h.byteA_eq ho] at hc'
    exact ⟨m, hc', fun _ hk => hk⟩
  | badB hp ho ha hb =>
    have hA := h.byteA_eq (by rw [ho]; decide)
    have hB := h.byteB_eq (by rw [ho]; decide)
    have hc' : StepCase (s.withMem m) _ := .badB hp (by rwa [hop]) (by rwa [hA]) (by rwa [hB])
    rw [hB] at hc'
    exact ⟨m, hc', fun _ hk => hk⟩
  | ldi r hp ho ha =>
    have hA := h.byteA_eq (by rw [ho]; decide)
    have hB := h.byteB_eq (by rw [ho]; decide)
    have hc' : StepCase (s.withMem m) _ := .ldi r hp (by rwa [hop]) (by rwa [hA])
    rw [hB] at hc'
    exact ⟨m, hc', fun _ hk => hk⟩
  | prn r hp ho ha =>
    have hA := h.byteA_eq (by rw [ho]; decide)
    exact ⟨m, .prn r hp (by rwa [hop]) (by rwa [hA]), fun _ hk => hk⟩
  | hlt hp ho => exact ⟨m, .hlt hp (by rwa [hop]), fun _ hk => hk⟩
  | mul ra rb hp ho ha hb =>
    have hA := h.byteA_eq (by rw [ho]; decide)
    have hB := h.byteB_eq (by rw [ho]; decide)
    exact ⟨m, .mul ra rb hp (by rwa [hop]) (by rwa [hA]) (by rwa [hB]), fun _ hk => hk⟩
  | push r hp ho ha =>
    have hA := h.byteA_eq (by rw [ho]; decide)
    exact ⟨_, .push r hp (by rwa [hop]) (by rwa [hA]), fun k hk => by simp [hk]⟩
  | pop r hp ho ha =>
    have hA := h.byteA_eq (by rw [ho]; decide)
    have hc' : StepCase (s.withMem m) _ := .pop r hp (by rwa [hop]) (by rwa [hA])
    rw [State.withMem_mem, State.withMem_sp, h.popped ho] at hc'
    exact ⟨m, hc', fun _ hk => hk⟩

/-! ### The obligations -/

/-- Settles O36: the store lands on the opcode byte of the next step, and HLT always completes. -/
theorem storeIsSeenByTheNextFetch : Obligations.StoreIsSeenByTheNextFetch := by
  intro s r hrun ho ha hr hcell
  have hp : s.pc.toNat ≤ 253 := by omega
  have hop := State.afterPush_opcodeByte hr (by omega) hcell
  have hpc := s.afterPush_pc_toNat r (by omega)
  refine ⟨s.afterPush r, step_eq_afterPush hrun (by omega) ho ha, hop, fun hx => ?_⟩
  have hhlt : StepCase (s.afterPush r) ((s.afterPush r).halt.advance 1) := .hlt (by omega) (hop.trans hx)
  exact ⟨_, step_eq_next_iff.mpr ⟨hrun, hhlt⟩, rfl, hrun.2⟩

/-- Settles O40: of the twelve cases of a step a completed PUSH alone stores. -/
theorem onlyPushStores : Obligations.OnlyPushStores := by
  intro s t h
  obtain ⟨_, hc⟩ := case_of_step s h
  exact ⟨hc.mem_of_not_push, fun _ => hc.read_mem_of_ne⟩

/-- Settles O42: the case of the step is the same over both memories, and the cases determine the step. -/
theorem stepReadsOnlyItsOwnCells : Obligations.StepReadsOnlyItsOwnCells := by
  intro s m hrun hinstr hpopped
  obtain ⟨t, hstep, hc⟩ := step_case s hrun
  obtain ⟨n, hc', hcells⟩ := hc.withMem ⟨hinstr, hpopped⟩
  exact ⟨t, t.withMem n, hstep, step_eq_next_iff.mpr ⟨hrun, hc'⟩, rfl, rfl, rfl, rfl, rfl, hcells⟩

/-- Settles O12, by the two outcomes of a read. -/
theorem memReadContract : Obligations.MemReadContract := by
  intro s a
  split
  · next h => exact s.memRead_error a h
  · next h => exact s.memRead_ok a (Nat.le_of_not_lt h)

/-- Settles O13, by the two outcomes of a write and the read over a written cell. -/
theorem memWriteContract : Obligations.MemWriteContract := by
  intro s a v
  refine ⟨s.memWrite_error a v, fun h => ⟨s.setCell a v, s.memWrite_ok a v h, by simp, fun b hb => ?_, ?_⟩⟩
  · rw [State.setCell_mem, Memory.read_write, if_neg hb]
  · exact ⟨rfl, rfl, rfl, rfl, rfl⟩

end Sys2Proof.Machine
end

section
/-! Encoding: the decoder against the encoder, the opcode map, and the Loader's lines of binary digits (30_encoding). -/

namespace Sys2Proof

variable {ε α β : Type}

/-! ### Reading operand bytes -/

/-- A bind answers no error that neither of its parts answers. -/
theorem except_bind_ne_error {x : Except ε α} {f : α → Except ε β} {r : ε} (hx : x ≠ .error r)
    (hf : ∀ a, f a ≠ .error r) : (x >>= f) ≠ .error r := by
  cases x with
  | error => simpa using hx
  | ok a => exact hf a

variable {bytes rest : List Byte} {op : Byte} {k : Opcode} {i : Instr}

/-- A list of bytes never refuses a byte by naming an opcode. -/
theorem byteAt_ne_unknownOpcode (j : Nat) : byteAt bytes j ≠ .error (.unknownOpcode op) := by
  cases h : bytes[j]? <;> simp [byteAt, h]

/-- What reads one operand byte takes the byte after the opcode byte. -/
theorem operand_prefix_of_read_a {mk : Byte → Instr}
    (h : (byteAt (op :: rest) 1 >>= fun a => .ok (mk a)) = .ok i) : ∃ a, [a] <+: rest ∧ i = mk a := by
  match rest with
  | [] => exact nomatch h
  | a :: t => exact ⟨a, List.prefix_append [a] t, (Except.ok.inj h).symm⟩

/-- What reads two operand bytes takes the two bytes after the opcode byte, in order. -/
theorem operands_prefix_of_read_a_b {mk : Byte → Byte → Instr}
    (h : (byteAt (op :: rest) 1 >>= fun a => byteAt (op :: rest) 2 >>= fun b => .ok (mk a b)) = .ok i) :
    ∃ a b, [a, b] <+: rest ∧ i = mk a b := by
  match rest with
  | [] | [_] => exact nomatch h
  | a :: b :: t => exact ⟨a, b, List.prefix_append [a, b] t, (Except.ok.inj h).symm⟩

/-- The operand bytes of an instruction are read back as that instruction, whatever follows them. -/
theorem decodeOperands_operands_append (i : Instr) (op : Byte) (rest : List Byte) :
    decodeOperands (byteAt (op :: (i.operands ++ rest))) i.opcode = .ok i := by
  cases i <;> rfl

/-- The operands of an opcode are read as `i` exactly when `i` has that opcode and its operand bytes come next. -/
theorem decodeOperands_eq_ok_iff :
    decodeOperands (byteAt (op :: rest)) k = .ok i ↔ i.opcode = k ∧ i.operands <+: rest := by
  constructor
  · intro h
    cases k with
    | hlt => cases h; exact ⟨rfl, List.nil_prefix⟩
    | prn | push | pop =>
      obtain ⟨a, ha, rfl⟩ := operand_prefix_of_read_a h
      exact ⟨rfl, ha⟩
    | ldi | mul =>
      obtain ⟨a, b, hab, rfl⟩ := operands_prefix_of_read_a_b h
      exact ⟨rfl, hab⟩
  · rintro ⟨rfl, t, rfl⟩
    exact decodeOperands_operands_append i op t

/-- Reading operands never refuses an opcode. -/
theorem decodeOperands_ne_unknownOpcode : decodeOperands (byteAt bytes) k ≠ .error (.unknownOpcode op) := by
  cases k with
  | hlt => nofun
  | prn | push | pop => exact except_bind_ne_error (byteAt_ne_unknownOpcode 1) nofun
  | ldi | mul =>
    exact except_bind_ne_error (byteAt_ne_unknownOpcode 1) fun _ =>
      except_bind_ne_error (byteAt_ne_unknownOpcode 2) nofun

/-! ### The opcode map and the decoder -/

/-- The lookup answers an opcode for that opcode's byte only. -/
theorem decodeOpcode_eq_some_iff : decodeOpcode op = some k ↔ k.code = op := by
  refine ⟨fun h => ?_, fun h => h ▸ decodeOpcode_code k⟩
  rcases decodeOpcode_cases op with ⟨_, hd⟩ | ⟨rfl, hd⟩ | ⟨rfl, hd⟩ | ⟨rfl, hd⟩ | ⟨rfl, hd⟩ | ⟨rfl, hd⟩ | ⟨rfl, hd⟩
  · exact nomatch hd.symm.trans h
  all_goals cases hd.symm.trans h; rfl

/-- The lookup fails exactly on the bytes outside the table. -/
theorem decodeOpcode_eq_none_iff : decodeOpcode op = none ↔ op ∉ Machine.tableOpcodes := by
  refine ⟨fun h => ?_, Machine.decodeOpcode_of_not_mem⟩
  rcases decodeOpcode_cases op with ⟨hm, _⟩ | ⟨_, hd⟩ | ⟨_, hd⟩ | ⟨_, hd⟩ | ⟨_, hd⟩ | ⟨_, hd⟩ | ⟨_, hd⟩
  · exact hm
  all_goals exact nomatch h.symm.trans hd

/-- The byte values without an opcode are the 256 values less the six of the table (30_encoding R48). -/
theorem filter_decodeOpcode_isNone_eq_diff :
    (List.range 256).filter (fun n => (decodeOpcode (BitVec.ofNat 8 n)).isNone) =
      (List.range 256).diff (Machine.tableOpcodes.map BitVec.toNat) := by
  rw [List.nodup_range.sdiff_eq_filter]
  refine List.filter_congr fun n hn => ?_
  have hn : n % 256 = n := Nat.mod_eq_of_lt (List.mem_range.mp hn)
  rw [Bool.eq_iff_iff, Option.isNone_iff_eq_none, decodeOpcode_eq_none_iff]
  simp [Machine.tableOpcodes, ← BitVec.toNat_inj, hn]

/-- A list that begins with an opcode byte decodes to `i` exactly when `i` has that byte and its operand bytes
come next. -/
theorem decode_cons_eq_ok_iff : decode (op :: rest) = .ok i ↔ i.opcode.code = op ∧ i.operands <+: rest := by
  cases hd : decodeOpcode op with
  | none =>
    have hne : i.opcode.code ≠ op := fun h => nomatch hd.symm.trans (decodeOpcode_eq_some_iff.mpr h)
    simp [decode_cons_unknown op rest hd, hne]
  | some k =>
    have hk : i.opcode = k ↔ i.opcode.code = op := by
      rw [← decodeOpcode_eq_some_iff, hd, Option.some_inj, eq_comm]
    rw [decode_cons_known op rest k hd, decodeOperands_eq_ok_iff, hk]

/-- The decoder refuses an opcode byte exactly when the lookup does not know it. -/
theorem decode_cons_eq_unknownOpcode_iff :
    decode (op :: rest) = .error (.unknownOpcode op) ↔ decodeOpcode op = none := by
  refine ⟨fun h => ?_, decode_cons_unknown op rest⟩
  cases hd : decodeOpcode op with
  | none => rfl
  | some k => exact absurd ((decode_cons_known op rest k hd).symm.trans h) decodeOperands_ne_unknownOpcode

/-- The bytes of an instruction, whatever follows them, decode to it. -/
theorem decode_encode_append (i : Instr) (rest : List Byte) : decode (encode i ++ rest) = .ok i :=
  decode_cons_eq_ok_iff.mpr ⟨rfl, List.prefix_append i.operands rest⟩

/-! ### The obligations on the decoder -/

/-- Settles O3: the opcode byte by the lookup's inverse, the operand bytes opcode by opcode. -/
theorem decodesExactlyTheEncodedPrefix : Obligations.DecodesExactlyTheEncodedPrefix := by
  intro bytes i
  cases bytes with
  | nil => simp [decode_nil, encode]
  | cons op rest => rw [decode_cons_eq_ok_iff, encode, List.cons_prefix_cons]

/-- Settles O1: each list is the encoding of its instruction. -/
theorem writtenOutWordsDecode : Obligations.WrittenOutWordsDecode :=
  ⟨decode_encode_append (.ldi 0 8) [], decode_encode_append (.prn 3) [], decode_encode_append .hlt [],
    decode_encode_append (.mul 6 1) [], decode_encode_append (.push 7) [], decode_encode_append (.pop 0xC8#8) []⟩

/-- Settles O2: the decoder refuses by name what the lookup does not know, which is what stands outside the table. -/
theorem opcodesOutsideTheTableAreUnknown : Obligations.OpcodesOutsideTheTableAreUnknown := by
  refine ⟨fun op rest => ?_, ?_, decodeOpcode_code .ldi, decodeOpcode_code .prn, decodeOpcode_code .hlt,
    decodeOpcode_code .mul, decodeOpcode_code .push, decodeOpcode_code .pop⟩
  · rw [decode_cons_eq_unknownOpcode_iff, decodeOpcode_eq_none_iff]
    simp [Machine.tableOpcodes]
  · rw [filter_decodeOpcode_isNone_eq_diff]
    simp [Machine.tableOpcodes, List.length_erase_of_mem]

end Sys2Proof

namespace Sys2Proof.Machine

open Sys2Proof

/-! ### Meanings one after another -/

/-- A sequence of meanings goes on from the state its first one answers. -/
theorem execSeq_cons_of_next {i : Instr} {is : List Instr} {s t : State} (h : exec i s = .next t) :
    execSeq (i :: is) s = execSeq is t := by
  rw [execSeq, h]

/-- Settles O32: PRN reads the register LDI has just written. -/
theorem ldiThenPrnEmits : Obligations.LdiThenPrnEmits := by
  intro s a imm ha
  obtain ⟨r, hr⟩ : ∃ r : RegIndex, a.toNat = r.val := ⟨⟨a.toNat, by omega⟩, rfl⟩
  refine ⟨_, (execSeq_cons_of_next (exec_ldi_ok s a imm r hr)).trans
    (execSeq_cons_of_next (exec_prn_ok _ a r hr)), ?_, ?_⟩
  · simp
  · simp [BitVec.add_assoc]

/-! ### Lines of binary digits -/

/-- The low `w` bits of a number as binary digits, most significant first (30_encoding R53). -/
def binaryDigits (n : Nat) : Nat → List Char
  | 0 => []
  | w + 1 => (if n.testBit w then '1' else '0') :: binaryDigits n w

variable (n : Nat)

/-- The obligation's line of a byte is the byte's eight binary digits. -/
theorem map_bit_range_eq_binaryDigits (b : Byte) :
    ((List.range 8).map fun k => if b.getLsbD (7 - k) then '1' else '0') = binaryDigits b.toNat 8 := rfl

/-- `w` bits are written as `w` digits. -/
theorem length_binaryDigits (w : Nat) : (binaryDigits n w).length = w := by
  induction w with
  | zero => rfl
  | succ w ih => simp [binaryDigits, ih]

/-- No character of the digits is a blank, a `#` or a line feed: each is `0` or `1`. -/
theorem eq_zero_or_one_of_mem_binaryDigits {w : Nat} {c : Char} (h : c ∈ binaryDigits n w) : c = '0' ∨ c = '1' := by
  induction w with
  | zero => exact absurd h List.not_mem_nil
  | succ w ih =>
    rcases List.mem_cons.mp h with rfl | h
    · split <;> simp
    · exact ih h

/-- A text of binary digits reads as its number, after what was read before it. -/
theorem binaryValue_binaryDigits (acc w : Nat) :
    binaryValue acc (binaryDigits n w) = some (acc * 2 ^ w + n % 2 ^ w) := by
  induction w generalizing acc with
  | zero => simp [binaryDigits, binaryValue, Nat.mod_one]
  | succ w ih =>
    rw [binaryDigits, Nat.mod_pow_succ, ← n.toNat_testBit w]
    cases n.testBit w <;> simp [binaryValue, ih] <;> ring

/-- A line with no blank and no `#` is its own body. -/
theorem lineBody_eq_self {line : List Char} (h : ∀ c ∈ line, c ≠ '#' ∧ isBlank c = false) : lineBody line = line := by
  have htake : line.takeWhile (fun c => c != '#') = line :=
    List.takeWhile_eq_self_iff.mpr fun c hc => by simpa using (h c hc).1
  have hdrop : ∀ l : List Char, l ⊆ line → l.dropWhile isBlank = l := fun l hl =>
    List.dropWhile_eq_self_iff.mpr fun _ => by simp [(h _ (hl (List.getElem_mem _))).2]
  rw [lineBody, htake, hdrop line (List.Subset.refl _), hdrop line.reverse (by simp), List.reverse_reverse]

/-- A line of eight binary digits is one program byte. -/
theorem loaderLine_binaryDigits (b : Byte) : loaderLine (binaryDigits b.toNat 8) = .byte b := by
  have hbody : lineBody (binaryDigits b.toNat 8) = binaryDigits b.toNat 8 := by
    refine lineBody_eq_self fun c hc => ?_
    rcases eq_zero_or_one_of_mem_binaryDigits _ hc with rfl | rfl <;> decide
  have hne : binaryDigits b.toNat 8 ≠ [] := List.cons_ne_nil _ _
  have hvalue : binaryValue 0 (binaryDigits b.toNat 8) = some b.toNat := by
    rw [binaryValue_binaryDigits, Nat.zero_mul, Nat.zero_add, Nat.mod_eq_of_lt b.isLt]
  simp [loaderLine, hbody, hne, hvalue, length_binaryDigits]

/-- A line feed ends the line before it (assumption log 12). -/
theorem splitLines_append_lineFeed {line : List Char} (h : '\n' ∉ line) (text : List Char) :
    splitLines (line ++ '\n' :: text) = line :: splitLines text := by
  induction line with
  | nil => simp [splitLines]
  | cons c cs ih =>
    have hc : c ≠ '\n' := (List.ne_of_not_mem_cons h).symm
    simp [splitLines, hc, ih (List.not_mem_of_not_mem_cons h)]

/-- A line of eight binary digits puts its byte before the bytes of the text that follows. -/
theorem loader_binaryDigits_lineFeed (b : Byte) (text : List Char) {bs : List Byte} (h : loader text = some bs) :
    loader (binaryDigits b.toNat 8 ++ '\n' :: text) = some (b :: bs) := by
  have hlf : '\n' ∉ binaryDigits b.toNat 8 := fun hc => by
    rcases eq_zero_or_one_of_mem_binaryDigits _ hc with hc | hc <;> exact absurd hc (by decide)
  rw [loader] at h
  rw [loader, splitLines_append_lineFeed hlf, loaderBytes, loaderLine_binaryDigits, h]

/-- Settles O53, by induction on the bytes: each line is one byte, and the empty text after the last line feed is none. -/
theorem loaderReadsBinaryLines : Obligations.LoaderReadsBinaryLines := by
  intro bytes
  induction bytes with
  | nil => rfl
  | cons b bs ih =>
    rw [List.flatMap_cons, map_bit_range_eq_binaryDigits, List.append_assoc]
    exact loader_binaryDigits_lineFeed b _ ih

end Sys2Proof.Machine
end

section
/-! Dispatch and the loop: the step as decoding and then the meaning, the states that have a next state, and the end of
every run (40_dispatch_loop). -/

namespace Sys2Proof

/-! ### Decoding over another source of bytes -/

section MapError

variable {ε ε' α β : Type} {f : ε → ε'} {read : Nat → Except ε Byte} {read' : Nat → Except ε' Byte}

/-- Renaming the errors of a bind renames those of its parts. -/
theorem except_mapError_bind (x : Except ε α) (g : α → Except ε β) :
    (x >>= g).mapError f = x.mapError f >>= fun a => (g a).mapError f := by
  cases x <;> rfl

/-- Renaming errors leaves a value as it is. -/
theorem except_mapError_ok (a : α) : (Except.ok a : Except ε α).mapError f = .ok a := rfl

/-- Operands read from a source that differs in its errors only decode alike. -/
theorem decodeOperands_mapError (h : ∀ k, read' k = (read k).mapError f) (k : Opcode) :
    decodeOperands read' k = (decodeOperands read k).mapError f := by
  cases k with
  | hlt => rfl
  | prn | push | pop | ldi | mul =>
    simp only [decodeOperands, h, except_mapError_bind, except_mapError_ok]

/-- Whole instructions decode alike too, where the refusal of an unknown opcode is renamed as the errors are. -/
theorem decodeWith_mapError (h : ∀ k, read' k = (read k).mapError f) (unknown : Byte → ε) :
    decodeWith read' (f ∘ unknown) = (decodeWith read unknown).mapError f := by
  rw [decodeWith, decodeWith, except_mapError_bind, h 0]
  congr 1
  funext op
  cases decodeOpcode op with
  | none => rfl
  | some k => exact decodeOperands_mapError h k

end MapError

/-- An instruction has as many bytes as its width. -/
theorem length_encode (i : Instr) : (encode i).length = i.width := by
  cases i <;> rfl

end Sys2Proof

namespace Sys2Proof.Machine

open Sys2Proof

variable {s t : State}

/-! ### The fetch is the decoder over the cells from the pc -/

/-- The record of what the decoder refuses in the cells from the pc: the fault of the unknown opcode, or that of the
address of the missing byte. -/
def State.refusalRecord (s : State) : DecodeError → FaultRecord
  | .missingByte k => .memoryAddressOutOfRange (s.pc.toNat + k) s.pc
  | .unknownOpcode op => .unknownInstruction op s.pc

/-- A memory read from the pc on is the read of the cells from the pc. -/
theorem memRead_eq_byteAt_cellsFromPc (s : State) (k : Nat) :
    s.memRead (s.pc.toNat + k) = (byteAt s.cellsFromPc k).mapError s.refusalRecord := by
  rw [byteAt_cellsFromPc]
  split
  · next h => exact s.memRead_ok _ h
  · next h => exact s.memRead_error _ (Nat.lt_of_not_le h)

/-- One decoder serves the fetch and the list of cells (40_dispatch_loop R57). -/
theorem fetch_eq_decode_cellsFromPc (s : State) :
    s.fetch = (decode s.cellsFromPc).mapError s.refusalRecord :=
  decodeWith_mapError (memRead_eq_byteAt_cellsFromPc s) DecodeError.unknownOpcode

/-- A step runs what the cells from the pc decode to. -/
theorem step_of_decode_ok {i : Instr} (hrun : s.running) (h : decode s.cellsFromPc = .ok i) :
    step s = exec i s := by
  rw [step_of_running s hrun.1 hrun.2]
  exact cycle_ok s (by rw [fetch_eq_decode_cellsFromPc, h]; rfl)

/-- A step latches the record of what the decoder refuses. -/
theorem step_of_decode_error {e : DecodeError} (hrun : s.running) (h : decode s.cellsFromPc = .error e) :
    step s = .next (s.latch (s.refusalRecord e)) := by
  rw [step_of_running s hrun.1 hrun.2]
  exact cycle_error s (by rw [fetch_eq_decode_cellsFromPc, h]; rfl)

theorem State.length_cellsFromPc (s : State) : s.cellsFromPc.length = 256 - s.pc.toNat := by
  simp [State.cellsFromPc, Config.memSize]

/-- The cells from the pc begin with the bytes of `i` when those stand there and all lie within memory. -/
theorem encode_prefix_cellsFromPc {i : Instr} (hfit : s.pc.toNat + i.width ≤ 256)
    (h : ∀ k, k < i.width → s.mem.read (s.pc.toNat + k) = (encode i).getD k 0) :
    encode i <+: s.cellsFromPc := by
  have hlen : (encode i).length ≤ s.cellsFromPc.length := by
    rw [length_encode, State.length_cellsFromPc]
    omega
  rw [List.prefix_iff_getElem]
  refine ⟨hlen, fun k hk => ?_⟩
  have hcell := h k (length_encode i ▸ hk)
  simp [State.cellsFromPc, hcell, hk]

/-! ### The states that have a next state -/

/-- A state with a record in the latch has no next state (40_dispatch_loop R63). -/
theorem step_ne_next_of_fault {r : FaultRecord} (h : s.fault = some r) (u : State) : step s ≠ .next u := fun hu =>
  nomatch h.symm.trans (running_of_step s hu).2

/-- A state with RUN false has no next state (40_dispatch_loop R63). -/
theorem step_ne_next_of_run_false (h : s.run = false) (u : State) : step s ≠ .next u := fun hu =>
  nomatch h.symm.trans (running_of_step s hu).1

/-! ### The end of a run -/

/-- The two ends of a run: halted without a fault one past a HLT, or faulted with RUN true and the record of the
instruction at the pc. -/
def State.Ended (s : State) : Prop :=
  (s.run = false ∧ s.fault = none ∧ 1 ≤ s.pc.toNat ∧ s.mem.read (s.pc.toNat - 1) = 0x01#8) ∨
    ∃ r, s.fault = some r ∧ s.run = true ∧ r.pc = s.pc

/-- An ended run stays where it is. -/
theorem State.Ended.runLoop_eq (h : s.Ended) (n : Nat) : runLoop n s = s := by
  rcases h with ⟨hrun, _⟩ | ⟨r, hf, _⟩
  · exact runLoop_of_stopped n (step_ne_next_of_run_false hrun)
  · exact runLoop_of_stopped n (step_ne_next_of_fault hf)

/-- The record a step latches holds the pc at which it began, in every state. -/
theorem StepCase.record_pc {r : FaultRecord} (hc : StepCase s t) (hs : s.fault = none) (hf : t.fault = some r) :
    r.pc = s.pc := by
  cases hc with
  | ldi | prn | hlt | mul | push | pop => exact nomatch hs.symm.trans hf
  | _ => cases hf; rfl

/-- Every instruction but HLT is at least two bytes wide. -/
theorem two_le_tableWidth {op : Byte} (hm : op ∈ tableOpcodes) (hne : op ≠ 0x01#8) : 2 ≤ tableWidth op := by
  rw [tableWidth_of_mem hm, if_neg hne]
  split_ifs <;> decide

/-- A step that executed a HLT cleared RUN, so one that leaves RUN true and FAULT none moved the pc by two or more. -/
theorem StepCase.pc_add_two_le (hc : StepCase s t) (ht : t.running) :
    s.pc.toNat + 2 ≤ t.pc.toNat ∧ t.pc.toNat ≤ 256 := by
  obtain ⟨hrun, hnone⟩ := ht
  obtain ⟨hmem, hpc, hle⟩ := hc.pc_of_completed hnone
  have hne : s.opcodeByte ≠ 0x01#8 := fun ho => by
    have hp : s.pc.toNat ≤ 255 := by have := tableWidth_pos s.opcodeByte; omega
    rw [hc.eq_of_hlt hp ho] at hrun
    exact nomatch hrun
  have hwidth := two_le_tableWidth hmem hne
  exact ⟨by omega, hle⟩

/-- A step ends the run or goes on: it latches a record, completes a HLT, or leaves RUN true and FAULT none. -/
theorem StepCase.ended_or_running (hc : StepCase s t) (hs : s.running) : t.Ended ∨ t.running := by
  obtain ⟨hrun, hnone⟩ := hs
  cases hf : t.fault with
  | some r =>
    have hlatch := hc.eq_latch hnone hf
    refine .inl (.inr ⟨r, hf, ?_, ?_⟩)
    · rw [hlatch, State.latch_run, hrun]
    · rw [hlatch, State.latch_pc, hc.record_pc hnone hf]
  | none =>
    cases hr : t.run with
    | false => exact .inl (.inl ⟨hr, hf, hc.hlt_below_pc hrun hr⟩)
    | true => exact .inr ⟨hr, hf⟩

/-- What a run comes to `k` steps or more after a step, it comes to from before that step, one step later. -/
theorem runLoop_eq_of_next {u : State} {k : Nat} (hstep : step s = .next u) (h : ∀ n, k ≤ n → runLoop n u = t) :
    ∀ n, k < n → runLoop n s = t
  | n + 1, hn => (runLoop_succ_of_next n hstep).trans (h n (Nat.le_of_lt_succ hn))

/-- The bound from any pc: when `k` instructions of two bytes reach the end of memory, `k + 1` steps end the run, and
`k` steps do when it ends halted. -/
theorem exists_end_of_run (k : Nat) (hs : s.running) (hk : 256 ≤ s.pc.toNat + 2 * k) :
    ∃ t, t.Ended ∧ (∀ n, k < n → runLoop n s = t) ∧ (t.run = false → runLoop k s = t) := by
  induction k generalizing s with
  | zero =>
    obtain ⟨t, hstep, hc⟩ := step_case s hs
    have hend : t.Ended := (hc.ended_or_running hs).resolve_right fun ht => by
      have := hc.pc_add_two_le ht
      omega
    refine ⟨t, hend, runLoop_eq_of_next hstep fun n _ => hend.runLoop_eq n, fun ht => ?_⟩
    have := hc.hlt_of_run_false hs.1 ht
    omega
  | succ k ih =>
    obtain ⟨u, hstep, hc⟩ := step_case s hs
    rcases hc.ended_or_running hs with hend | hu
    · have hstay := runLoop_eq_of_next hstep fun n (_ : 0 ≤ n) => hend.runLoop_eq n
      exact ⟨u, hend, fun n hn => hstay n (by omega), fun _ => hstay (k + 1) (by omega)⟩
    · obtain ⟨t, hend, hafter, hhalt⟩ := ih hu (by have := hc.pc_add_two_le hu; omega)
      exact ⟨t, hend, runLoop_eq_of_next hstep hafter, fun ht => (runLoop_succ_of_next k hstep).trans (hhalt ht)⟩

/-! ### The obligations -/

/-- Settles O5: the fetch is the decoder over the cells from the pc, with its refusals renamed to records. -/
theorem stepIsDecodeThenExec : Obligations.StepIsDecodeThenExec := by
  intro s hrun
  split
  · next h => exact step_of_decode_ok hrun h
  · next h => exact step_of_decode_error hrun h
  · next h => exact step_of_decode_error hrun h

/-- Settles O6: a running state has one of the twelve cases of a step, and no other state has a next one. -/
theorem nextStateExactlyWhenRunning : Obligations.NextStateExactlyWhenRunning := by
  refine fun s => ⟨fun ⟨_, h⟩ => running_of_step s h, fun hrun => ?_⟩
  obtain ⟨t, ht, _⟩ := step_case s hrun
  exact ⟨t, ht⟩

/-- Settles O46: 128 instructions of two bytes reach the end of memory from any pc. -/
theorem everyRunEnds : Obligations.EveryRunEnds := by
  intro s n hs hn
  obtain ⟨t, hend, hafter, hhalt⟩ := exists_end_of_run 128 hs (by omega)
  rw [hafter n hn, hafter 129 (by decide)]
  exact ⟨rfl, fun ht => (hhalt ht).symm, hend⟩

/-- Settles O4: the bytes of `i` at the head of the cells from the pc decode to `i`. -/
theorem stepRunsTheEncodedInstruction : Obligations.StepRunsTheEncodedInstruction := by
  intro s i hrun hfit hbytes
  exact step_of_decode_ok hrun ((decodesExactlyTheEncodedPrefix _ i).mpr (encode_prefix_cellsFromPc hfit hbytes))

/-- Settles O8: one of the twelve cases of a step, and a latched record has no next state. -/
theorem unknownOpcodeLatches : Obligations.UnknownOpcodeLatches := by
  intro s hrun hp ho
  have hout : s.opcodeByte ∉ tableOpcodes := fun h => ho (by
    simp only [tableOpcodes, List.mem_cons, List.not_mem_nil, or_false] at h ⊢
    tauto)
  exact ⟨_, step_eq_next_iff.mpr ⟨hrun, .unknown hp hout⟩, rfl, step_ne_next_of_fault rfl⟩

end Sys2Proof.Machine
end

section
/-! LDI: where it completes, and its whole rule at the level of the step (41_load_immediate). -/

namespace Sys2Proof.Machine

open Sys2Proof

variable {s : State}

/-- Each opcode with a second operand has a first one (30_encoding R47). -/
theorem mem_opcodesWithA_of_mem_opcodesWithB {op : Byte} (h : op ∈ opcodesWithB) : op ∈ opcodesWithA := by
  simp only [opcodesWithB, List.mem_cons, List.not_mem_nil, or_false] at h
  rcases h with rfl | rfl <;> decide

/-- An instruction of two operands at 254 or 255 latches the address 256, whichever operand byte is the missing one. -/
theorem StepCase.missing_operand_of_two (hlo : 254 ≤ s.pc.toNat) (hhi : s.pc.toNat ≤ 255)
    (ho : s.opcodeByte ∈ opcodesWithB) : StepCase s (s.latch (.memoryAddressOutOfRange 256 s.pc)) := by
  obtain h254 | h255 : s.pc.toNat = 254 ∨ s.pc.toNat = 255 := by omega
  · exact .missingB h254 ho
  · exact .missingA h255 (mem_opcodesWithA_of_mem_opcodesWithB ho)

/-- Settles O19: the register write and the pc advance are the whole effect of LDI. -/
theorem ldiCompletes : Obligations.LdiCompletes := by
  intro s a imm r hr
  refine ⟨_, exec_ldi_ok s a imm r hr, ?_, fun j hj => ?_, rfl, fun _ => rfl, rfl, rfl, rfl, rfl⟩
  · simp
  · simp [hj]

/-- Settles O26: the three cases of a step at a byte 0x82, in the order of the checks. -/
theorem ldiStep : Obligations.LdiStep := by
  intro s hrun hp ho
  have hB : s.opcodeByte ∈ opcodesWithB := by rw [ho]; decide
  by_cases hmissing : 254 ≤ s.pc.toNat
  · refine ⟨_, step_eq_next_iff.mpr ⟨hrun, .missing_operand_of_two hmissing hp hB⟩, ?_⟩
    rw [if_pos hmissing]; rfl
  have hfit : s.pc.toNat ≤ 253 := by omega
  by_cases hbad : 7 < s.byteA.toNat
  · refine ⟨_, step_eq_next_iff.mpr
      ⟨hrun, .badA (by omega) (mem_opcodesWithA_of_mem_opcodesWithB hB) (fun _ => hfit) hbad⟩, ?_⟩
    rw [if_neg hmissing, if_pos hbad]; rfl
  · obtain ⟨r, hr⟩ : ∃ r : RegIndex, s.byteA.toNat = r.val := ⟨⟨s.byteA.toNat, by omega⟩, rfl⟩
    refine ⟨_, step_eq_next_iff.mpr ⟨hrun, .ldi r hfit ho hr⟩, ?_⟩
    rw [if_neg hmissing, if_neg hbad]
    refine ⟨fun j => ?_, advance_pc_toNat _ 3 (by rw [State.setReg_pc]; omega), rfl, hrun.1, hrun.2, rfl⟩
    simp [hr, Fin.ext_iff]

end Sys2Proof.Machine
end

section
/-! PRN, HLT and the text of an output value: where they complete, their whole rules at the level of the step, and the
digits of the text (42_output_and_halt). -/

namespace Sys2Proof.Machine

open Sys2Proof

variable {s : State}

/-! ### The step of PRN and of HLT -/

/-- A byte that the index check does not refuse names a register. -/
theorem exists_regIndex_of_not_gt {a : Byte} (h : ¬ 7 < a.toNat) : ∃ r : RegIndex, a.toNat = r.val :=
  ⟨⟨a.toNat, by omega⟩, rfl⟩

/-- A halted state stops as such (40_dispatch_loop R63). -/
theorem step_of_succeeded (h : s.succeeded) : step s = .fault .halted := by
  obtain ⟨hrun, hnone⟩ := h
  simp [step, State.runState, hrun, hnone]

/-! ### The digits of the text -/

/-- The model's digit is the library's. -/
theorem decimalDigit_eq_digitChar {n : Nat} (h : n < 10) : decimalDigit n = n.digitChar := by
  revert n
  decide

/-- The library's digits of a number below 10 are the model's one digit. -/
theorem toDigits_of_lt_ten {n : Nat} (h : n < 10) : Nat.toDigits 10 n = [decimalDigit n] := by
  rw [Nat.toDigits_of_lt_base h, decimalDigit_eq_digitChar h]

/-- The library's digits of a number from 10 on end with the model's digit of its remainder. -/
theorem toDigits_of_ten_le {n : Nat} (h : 10 ≤ n) :
    Nat.toDigits 10 n = Nat.toDigits 10 (n / 10) ++ [decimalDigit (n % 10)] := by
  rw [Nat.toDigits_of_base_le (by decide) h, decimalDigit_eq_digitChar (Nat.mod_lt n (by decide))]

/-- The model's three cases of one, two and three digits are the library's digits in base 10. -/
theorem decimal_eq_toDigits (v : Byte) : decimal v = Nat.toDigits 10 v.toNat := by
  have hv := v.isLt
  unfold decimal
  split_ifs with h10 h100
  · rw [toDigits_of_lt_ten h10]
  · rw [toDigits_of_ten_le (by omega), toDigits_of_lt_ten (by omega), List.singleton_append]
  · rw [toDigits_of_ten_le (by omega), toDigits_of_ten_le (by omega), toDigits_of_lt_ten (by omega),
      Nat.div_div_eq_div_mul, List.append_assoc, List.singleton_append, List.singleton_append]

/-- No number but 0 is written with a leading zero. -/
theorem head?_toDigits_ne_zero {n : Nat} (h : n ≠ 0) : (Nat.toDigits 10 n).head? ≠ some '0' := by
  have digit_ne : ∀ m < 10, m ≠ 0 → some (decimalDigit m) ≠ some '0' := by decide
  induction n using Nat.strongRecOn with
  | ind n ih =>
    by_cases hlt : n < 10
    · rw [toDigits_of_lt_ten hlt, List.head?_singleton]
      exact digit_ne n hlt h
    · rw [toDigits_of_ten_le (Nat.le_of_not_lt hlt), List.head?_append_of_ne_nil _ Nat.toDigits_ne_nil]
      exact ih (n / 10) (by omega) (by omega)

/-! ### The obligations -/

/-- Settles O27: the three cases of a step at a byte 0x47, in the order of the checks. -/
theorem prnStep : Obligations.PrnStep := by
  intro s hrun hp ho
  have hA : s.opcodeByte ∈ opcodesWithA := by rw [ho]; decide
  have hB : s.opcodeByte ∉ opcodesWithB := by rw [ho]; decide
  by_cases hmissing : s.pc.toNat = 255
  · refine ⟨_, step_eq_next_iff.mpr ⟨hrun, .missingA hmissing hA⟩, ?_⟩
    rw [if_pos hmissing]; rfl
  have hfit : s.pc.toNat ≤ 254 := by omega
  by_cases hbad : 7 < s.byteA.toNat
  · refine ⟨_, step_eq_next_iff.mpr ⟨hrun, .badA hfit hA (fun h => absurd h hB) hbad⟩, ?_⟩
    rw [if_neg hmissing, if_pos hbad]; rfl
  · obtain ⟨r, hr⟩ := exists_regIndex_of_not_gt hbad
    refine ⟨_, step_eq_next_iff.mpr ⟨hrun, .prn r hfit ho hr⟩, ?_⟩
    rw [if_neg hmissing, if_neg hbad]
    refine ⟨fun j hj => ?_, advance_pc_toNat _ 2 (by rw [State.emit_pc]; omega), rfl, rfl, hrun.1, hrun.2⟩
    rw [Fin.ext (hj.trans hr), State.advance_out, State.emit_out]

/-- Settles O28: a HLT within memory completes, and what it leaves is a halted state. -/
theorem hltStep : Obligations.HltStep := by
  intro s hrun hp ho
  exact ⟨_, step_eq_next_iff.mpr ⟨hrun, .hlt hp ho⟩, rfl,
    advance_pc_toNat s.halt 1 (by rw [State.halt_pc]; omega), rfl, rfl, hrun.2, rfl,
    step_of_succeeded ⟨rfl, hrun.2⟩⟩

/-- Settles O20: the appended value and the pc advance are the whole effect of PRN. -/
theorem prnCompletes : Obligations.PrnCompletes := by
  intro s a r hr
  exact ⟨_, exec_prn_ok s a r hr, rfl, fun _ => rfl, rfl, fun _ => rfl, rfl, rfl, rfl⟩

/-- Settles O21: the cleared RUN and the pc advance are the whole effect of HLT. -/
theorem hltCompletes : Obligations.HltCompletes := by
  intro s
  exact ⟨_, exec_hlt s, rfl, rfl, fun _ => rfl, fun _ => rfl, rfl, rfl, rfl⟩

/-- Settles O50: after the five fixed characters stand the digits of the value in base 10, one to three of them
below 10 ^ 3. -/
theorem renderedTextReadsBack : Obligations.RenderedTextReadsBack := by
  intro v
  have hdrop : (render v).drop 5 = Nat.toDigits 10 v.toNat := decimal_eq_toDigits v
  have hlen : (render v).length = 5 + (Nat.toDigits 10 v.toNat).length := by
    rw [render, decimal_eq_toDigits, List.length_append]; rfl
  have hpos : 0 < (Nat.toDigits 10 v.toNat).length := Nat.length_toDigits_pos
  have hle : (Nat.toDigits 10 v.toNat).length ≤ 3 :=
    (Nat.length_toDigits_le_iff (by decide) (by decide)).mpr (by have := v.isLt; omega)
  rw [hdrop]
  refine ⟨rfl, ?_, ?_, ?_, by omega, by omega⟩
  · exact Nat.ofDigitChars_eq_foldl.symm.trans Nat.ofDigitChars_ten_toDigits
  · exact List.all_eq_true.mpr fun c hc => Nat.isDigit_of_mem_toDigits (by decide) (by decide) hc
  · by_cases h0 : v.toNat = 0
    · exact .inl (by rw [h0, Nat.toDigits_zero])
    · exact .inr (head?_toDigits_ne_zero h0)

end Sys2Proof.Machine
end

section
/-! The Arithmetic Unit and MUL: the register write of the unit, where MUL completes, and its whole rule at the level of
the step (43_alu). -/

namespace Sys2Proof.Machine

open Sys2Proof

variable {s t : State}

/-! ### The write of the unit -/

/-- The register written holds the value modulo 256 (10_state R13). -/
theorem State.setReg_reg_self_toNat (s : State) (i : RegIndex) (v : Nat) :
    ((s.setReg i v).reg i).toNat = v % 256 := by
  rw [State.setReg_reg, if_pos rfl, narrow_toNat_eq]

/-- Every register but the one written keeps its value. -/
theorem State.setReg_reg_of_ne {i j : RegIndex} (h : j ≠ i) (v : Nat) : (s.setReg i v).reg j = s.reg j := by
  rw [State.setReg_reg, if_neg h]

/-! ### The defensive fault -/

/-- Six of the twelve cases of a step latch a fault, none of them the unit's; the other six keep FAULT clear. -/
theorem StepCase.fault_ne_unsupportedAluOperation (hc : StepCase s t) (hs : s.fault = none) (pc : Pc) :
    t.fault ≠ some (.unsupportedAluOperation pc) := by
  intro hf
  cases hc with
  | ldi | prn | hlt | mul | push | pop => exact nomatch hs.symm.trans hf
  | _ => exact nomatch hf

/-! ### The obligations -/

/-- Settles O29: the four cases of a step at a byte 0xA2, in the order of the checks. -/
theorem mulStep : Obligations.MulStep := by
  intro s hrun hp ho
  have hB : s.opcodeByte ∈ opcodesWithB := by rw [ho]; decide
  by_cases hmissing : 254 ≤ s.pc.toNat
  · refine ⟨_, step_eq_next_iff.mpr ⟨hrun, .missing_operand_of_two hmissing hp hB⟩, ?_⟩
    rw [if_pos hmissing]; rfl
  have hfit : s.pc.toNat ≤ 253 := by omega
  by_cases hbadA : 7 < s.byteA.toNat
  · refine ⟨_, step_eq_next_iff.mpr
      ⟨hrun, .badA (by omega) (mem_opcodesWithA_of_mem_opcodesWithB hB) (fun _ => hfit) hbadA⟩, ?_⟩
    rw [if_neg hmissing, if_pos hbadA]; rfl
  by_cases hbadB : 7 < s.byteB.toNat
  · refine ⟨_, step_eq_next_iff.mpr ⟨hrun, .badB hfit ho (Nat.le_of_not_lt hbadA) hbadB⟩, ?_⟩
    rw [if_neg hmissing, if_neg hbadA, if_pos hbadB]; rfl
  · obtain ⟨ra, hra⟩ := exists_regIndex_of_not_gt hbadA
    obtain ⟨rb, hrb⟩ := exists_regIndex_of_not_gt hbadB
    refine ⟨_, step_eq_next_iff.mpr ⟨hrun, .mul ra rb hfit ho hra hrb⟩, ?_⟩
    rw [if_neg hmissing, if_neg hbadA, if_neg hbadB]
    refine ⟨fun qa qb hqa hqb => ?_, advance_pc_toNat _ 3 (by rw [State.setReg_pc]; omega), rfl,
      hrun.1, hrun.2, rfl⟩
    obtain rfl : qa = ra := Fin.ext (hqa.trans hra)
    obtain rfl : qb = rb := Fin.ext (hqb.trans hrb)
    exact ⟨s.setReg_reg_self_toNat qa _, fun _ hj => State.setReg_reg_of_ne hj _⟩

/-- Settles O18: the unit's own arm, and no case of a step that latches its fault. -/
theorem unsupportedAluOperationIsDefensive : Obligations.UnsupportedAluOperationIsDefensive := by
  refine ⟨fun _ _ _ => rfl, fun s t pc h => ?_⟩
  obtain ⟨⟨_, hnone⟩, hc⟩ := case_of_step s h
  exact hc.fault_ne_unsupportedAluOperation hnone pc

/-- Settles O16: ADD is one register write, of the exact sum. -/
theorem aluAddsModulo256 : Obligations.AluAddsModulo256 := by
  intro s a b
  exact ⟨_, rfl, s.setReg_reg_self_toNat a _, fun _ hj => State.setReg_reg_of_ne hj _, rfl, rfl, rfl, rfl, rfl⟩

/-- Settles O17: MUL is one register write, of the exact product; in the sequence it reads the two values LDI has
written, and PRN emits what it wrote. -/
theorem aluMultipliesModulo256 : Obligations.AluMultipliesModulo256 := by
  refine ⟨fun s a b => ?_, fun s a b => ?_⟩
  · exact ⟨_, rfl, s.setReg_reg_self_toNat a _, fun _ hj => State.setReg_reg_of_ne hj _, rfl, rfl, rfl, rfl, rfl⟩
  · have hldiA := exec_ldi_ok s 0 a 0 rfl
    have hldiB := exec_ldi_ok ((s.setReg 0 a.toNat).advance 3) 1 b 1 rfl
    refine ⟨_, narrow (exactProduct a b), (execSeq_cons_of_next hldiA).trans <|
      (execSeq_cons_of_next hldiB).trans <| (execSeq_cons_of_next (exec_mul_ok _ 0 1 0 1 rfl rfl)).trans <|
      execSeq_cons_of_next (exec_prn_ok _ 0 0 rfl), ?_, narrow_toNat_eq _⟩
    simp

/-- Settles O22: the unit's register write and the pc advance are the whole effect of MUL. -/
theorem mulCompletes : Obligations.MulCompletes := by
  intro s a b ra rb ha hb
  exact ⟨_, exec_mul_ok s a b ra rb ha hb, s.setReg_reg_self_toNat ra _,
    fun _ hj => State.setReg_reg_of_ne hj _, rfl, fun _ => rfl, rfl, rfl, rfl, rfl⟩

end Sys2Proof.Machine
end

section
/-! PUSH and POP: the states they leave, where they complete, their whole rules at the level of the step, and sequences
of them (44_stack). -/

namespace Sys2Proof.Machine

open Sys2Proof

variable {s : State}

/-! ### The state PUSH leaves -/

/-- PUSH of a register that exists answers `afterPush`. -/
theorem exec_push_eq_afterPush (s : State) {a : Byte} {r : RegIndex} (h : a.toNat = r.val) :
    exec (.push a) s = .next (s.afterPush r) :=
  exec_push_ok s a r h

/-- The pointer is decremented, with wrap (44_stack R76, R78). -/
theorem State.afterPush_sp_toNat (s : State) (r : RegIndex) :
    (s.afterPush r).sp.toNat = (s.sp.toNat + 255) % 256 :=
  s.setReg_reg_self_toNat Config.spIndex (exactDecrement s.sp)

/-- PUSH writes no register but the pointer. -/
theorem State.afterPush_reg (r : RegIndex) {j : RegIndex} (hj : j ≠ 7) : (s.afterPush r).reg j = s.reg j :=
  State.setReg_reg_of_ne hj _

/-- The one cell stored into is the one the decremented pointer addresses, and it holds the register as it is after the
decrement (44_stack R76, R79 c). -/
theorem State.afterPush_read (s : State) (r : RegIndex) (k : Nat) :
    (s.afterPush r).mem.read k =
      if k = (s.sp.toNat + 255) % 256 then (s.afterPush r).reg r else s.mem.read k := by
  simp [State.afterPush, exactDecrement]

/-- The cell at the pointer of a completed PUSH holds what was pushed. -/
theorem State.afterPush_read_sp (s : State) (r : RegIndex) :
    (s.afterPush r).mem.read (s.afterPush r).sp.toNat = (s.afterPush r).reg r := by
  rw [s.afterPush_read, if_pos (s.afterPush_sp_toNat r)]

/-! ### The state POP leaves -/

/-- The state a completed POP into register `r` leaves (44_stack R77). -/
def State.afterPop (s : State) (r : RegIndex) : State :=
  ((s.setReg r (s.mem.read s.sp.toNat).toNat).setReg Config.spIndex
    (exactIncrement (s.setReg r (s.mem.read s.sp.toNat).toNat).sp)).advance 2

/-- POP into a register that exists answers `afterPop`. -/
theorem exec_pop_eq_afterPop (s : State) {a : Byte} {r : RegIndex} (h : a.toNat = r.val) :
    exec (.pop a) s = .next (s.afterPop r) :=
  exec_pop_ok s a r h

/-- The pointer is incremented, with wrap, from the value it has once the register is written (44_stack R77, R78). -/
theorem State.afterPop_sp_toNat (s : State) (r : RegIndex) :
    (s.afterPop r).sp.toNat = ((s.setReg r (s.mem.read s.sp.toNat).toNat).sp.toNat + 1) % 256 :=
  State.setReg_reg_self_toNat _ Config.spIndex _

/-- POP into another register than the pointer increments the old pointer. -/
theorem State.afterPop_sp_toNat_of_ne {r : RegIndex} (hr : r ≠ 7) :
    (s.afterPop r).sp.toNat = (s.sp.toNat + 1) % 256 := by
  rw [s.afterPop_sp_toNat, State.sp, State.setReg_reg_of_ne hr.symm, ← State.sp]

/-- POP into the pointer itself increments the popped value (44_stack R79 d). -/
theorem State.afterPop_seven_sp_toNat (s : State) :
    (s.afterPop 7).sp.toNat = ((s.mem.read s.sp.toNat).toNat + 1) % 256 := by
  rw [s.afterPop_sp_toNat, State.sp, State.setReg_reg, if_pos rfl, narrow_toNat]

/-- Every register but the pointer holds the popped value if it is the operand, and its old value if not. -/
theorem State.afterPop_reg (r : RegIndex) {j : RegIndex} (hj : j ≠ 7) :
    (s.afterPop r).reg j = if j = r then s.mem.read s.sp.toNat else s.reg j := by
  rw [State.afterPop, State.advance_reg, State.setReg_reg_of_ne hj, State.setReg_reg, narrow_toNat]

theorem State.afterPop_pc_toNat (r : RegIndex) (hp : s.pc.toNat ≤ 254) :
    (s.afterPop r).pc.toNat = s.pc.toNat + 2 :=
  advance_pc_toNat _ 2 (by simp only [State.setReg_pc]; omega)

/-! ### A push, then a pop -/

/-- A push and a pop of registers that exist complete one after the other. -/
theorem execSeq_push_pop (s : State) {a b : Byte} {ra rb : RegIndex} (ha : a.toNat = ra.val) (hb : b.toNat = rb.val) :
    execSeq [.push a, .pop b] s = .next ((s.afterPush ra).afterPop rb) :=
  (execSeq_cons_of_next (exec_push_eq_afterPush s ha)).trans (execSeq_cons_of_next (exec_pop_eq_afterPop _ hb))

/-- A pop into another register than the pointer gives it what was pushed. -/
theorem State.afterPush_afterPop_reg (ra : RegIndex) {rb : RegIndex} (hb : rb ≠ 7) :
    ((s.afterPush ra).afterPop rb).reg rb = (s.afterPush ra).reg ra := by
  rw [State.afterPop_reg rb hb, if_pos rfl, s.afterPush_read_sp]

/-- A pop into another register than the pointer takes back the decrement, modulo 256. -/
theorem State.afterPush_afterPop_sp (ra : RegIndex) {rb : RegIndex} (hb : rb ≠ 7) :
    ((s.afterPush ra).afterPop rb).sp = s.sp := by
  apply BitVec.eq_of_toNat_eq
  rw [State.afterPop_sp_toNat_of_ne hb, s.afterPush_sp_toNat]
  have := s.sp.isLt
  omega

/-! ### The step of an instruction of one operand -/

/-- A step at an opcode byte of one operand: the two faults in order (60_exceptions R84, R85), or what the completing
case `P` says of the next state. -/
theorem exists_step_of_one_operand {P : State → Prop} (hrun : s.running) (hp : s.pc.toNat ≤ 255)
    (hA : s.opcodeByte ∈ opcodesWithA) (hB : s.opcodeByte ∉ opcodesWithB)
    (hok : s.pc.toNat ≤ 254 → ∀ r : RegIndex, s.byteA.toNat = r.val → ∃ t, StepCase s t ∧ P t) :
    ∃ t, step s = .next t ∧
      if s.pc.toNat = 255 then t = { s with fault := some (.memoryAddressOutOfRange 256 s.pc) }
      else if 7 < s.byteA.toNat then t = { s with fault := some (.registerIndexOutOfRange s.byteA s.pc) }
      else P t := by
  by_cases hmissing : s.pc.toNat = 255
  · refine ⟨_, step_eq_next_iff.mpr ⟨hrun, .missingA hmissing hA⟩, ?_⟩
    rw [if_pos hmissing]; rfl
  have hfit : s.pc.toNat ≤ 254 := by omega
  by_cases hbad : 7 < s.byteA.toNat
  · refine ⟨_, step_eq_next_iff.mpr ⟨hrun, .badA hfit hA (fun h => absurd h hB) hbad⟩, ?_⟩
    rw [if_neg hmissing, if_pos hbad]; rfl
  · obtain ⟨r, hr⟩ := exists_regIndex_of_not_gt hbad
    obtain ⟨t, hc, hP⟩ := hok hfit r hr
    exact ⟨t, step_eq_next_iff.mpr ⟨hrun, hc⟩, by rwa [if_neg hmissing, if_neg hbad]⟩

/-! ### The obligations -/

/-- Settles O23: the completed PUSH is `afterPush`, for register 7 too. -/
theorem pushCompletes : Obligations.PushCompletes := by
  intro s a r hr
  refine ⟨_, exec_push_eq_afterPush s hr, s.afterPush_sp_toNat r, fun _ => State.afterPush_reg r, ?_, fun k hk => ?_,
    rfl, rfl, rfl, rfl⟩
  · rw [s.afterPush_read, if_pos rfl]
    split_ifs with h7
    · rw [h7, State.sp]
    · exact State.afterPush_reg r h7
  · rw [s.afterPush_read, if_neg hk]

/-- Settles O24: the completed POP is `afterPop`, for register 7 too. -/
theorem popCompletes : Obligations.PopCompletes := by
  intro s a r hr
  refine ⟨_, exec_pop_eq_afterPop s hr, fun h7 => ⟨?_, State.afterPop_sp_toNat_of_ne h7⟩, fun h7 => ?_,
    fun j hj h7 => ?_, rfl, fun _ => rfl, rfl, rfl, rfl, rfl⟩
  · rw [State.afterPop_reg r h7, if_pos rfl]
  · rw [h7, s.afterPop_seven_sp_toNat]
  · rw [State.afterPop_reg r h7, if_neg hj]

/-- Settles O30: the three cases of a step at a byte 0x45, in the order of the checks; the completing one leaves
`afterPush`. -/
theorem pushStep : Obligations.PushStep := by
  intro s hrun hp ho
  refine exists_step_of_one_operand hrun hp (by rw [ho]; decide) (by rw [ho]; decide) fun hfit r hr =>
    ⟨s.afterPush r, .push r hfit ho hr, s.afterPush_sp_toNat r, fun _ => State.afterPush_reg r, fun j hj => ?_,
      fun k hk => ?_, s.afterPush_pc_toNat r hfit, hrun.1, hrun.2, rfl⟩
  · rw [Fin.ext (hj.trans hr), s.afterPush_read, if_pos rfl]
  · rw [s.afterPush_read, if_neg hk]

/-- Settles O31: the three cases of a step at a byte 0x46, in the order of the checks; the completing one leaves
`afterPop`. -/
theorem popStep : Obligations.PopStep := by
  intro s hrun hp ho
  refine exists_step_of_one_operand hrun hp (by rw [ho]; decide) (by rw [ho]; decide) fun hfit r hr =>
    ⟨s.afterPop r, .pop r hfit ho hr, fun h7 => ?_, fun h7 => State.afterPop_sp_toNat_of_ne ?_, fun j hj => ?_,
      State.afterPop_pc_toNat r hfit, rfl, hrun.1, hrun.2, rfl⟩
  · obtain rfl : r = 7 := Fin.ext (hr.symm.trans h7)
    exact s.afterPop_seven_sp_toNat
  · rintro rfl
    exact h7 hr
  · simp only [State.afterPop_reg r hj, hr, Fin.ext_iff]

/-- Settles O33: the popped cell is the pushed one, and the increment takes back the decrement. -/
theorem pushThenPopCarries : Obligations.PushThenPopCarries := by
  intro s a b ra rb ha hb hra hrb
  have hpushed : (s.afterPush ra).reg ra = s.reg ra := State.afterPush_reg ra hra
  refine ⟨_, execSeq_push_pop s ha hb, (State.afterPush_afterPop_reg ra hrb).trans hpushed,
    State.afterPush_afterPop_sp ra hrb, fun j hj => ?_, ?_⟩
  · by_cases h7 : j = 7
    · rw [h7]
      exact State.afterPush_afterPop_sp ra hrb
    · rw [State.afterPop_reg rb h7, if_neg hj, State.afterPush_reg ra h7]
  · exact ((s.afterPush_read ra _).trans (if_pos rfl)).trans hpushed

/-- Settles O34: PUSH of register 7 stores the decremented pointer, and POP into it increments the popped value. -/
theorem registerSevenOnTheStack : Obligations.RegisterSevenOnTheStack := by
  refine ⟨fun s b rb hb hrb => ?_, fun s a ra ha hra => ?_⟩
  · refine ⟨_, execSeq_push_pop s (ra := 7) rfl hb, ?_, State.afterPush_afterPop_sp 7 hrb⟩
    rw [State.afterPush_afterPop_reg 7 hrb]
    exact s.afterPush_sp_toNat 7
  · refine ⟨_, execSeq_push_pop s ha (rb := 7) rfl, ?_⟩
    rw [State.afterPop_seven_sp_toNat, s.afterPush_read_sp, State.afterPush_reg ra hra]

/-- Settles O35, by induction on the list of operands, from every state. -/
theorem pushesLowerThePointer : Obligations.PushesLowerThePointer := by
  intro s regs hregs
  induction regs generalizing s with
  | nil => exact ⟨s, rfl, (Nat.mod_eq_of_lt s.sp.isLt).symm, rfl⟩
  | cons a as ih =>
    obtain ⟨ha, has⟩ := List.forall_mem_cons.mp hregs
    obtain ⟨r, hr⟩ := exists_regIndex_of_not_gt (Nat.not_lt.mpr ha)
    obtain ⟨t, hseq, hsp, hfault⟩ := ih (s.afterPush r) has
    refine ⟨t, (execSeq_cons_of_next (exec_push_eq_afterPush s hr)).trans hseq, ?_, hfault⟩
    rw [hsp, s.afterPush_sp_toNat, List.length_cons]
    omega

end Sys2Proof.Machine
end

section
/-! The faults: the order in which they are met, the three causes of a memory fault, precision, the index checks, the
outcome a host reads and the trace view (60_exceptions). -/

namespace Sys2Proof.Machine

open Sys2Proof

variable {s t u : State}

/-! ### The run states -/

theorem State.runState_of_running (h : s.running) : s.runState = .running := by
  obtain ⟨hrun, hnone⟩ := h
  simp [State.runState, hrun, hnone]

theorem State.runState_of_succeeded (h : s.succeeded) : s.runState = .halted := by
  obtain ⟨hrun, hnone⟩ := h
  simp [State.runState, hrun, hnone]

/-- A record in the latch decides the run state, whatever RUN holds (10_state R19). -/
theorem State.runState_of_fault {r : FaultRecord} (h : s.fault = some r) : s.runState = .faulted r := by
  simp [State.runState, h]

/-- A faulted state stops as such, with its record (40_dispatch_loop R63). -/
theorem step_of_fault {r : FaultRecord} (h : s.fault = some r) : step s = .fault (.faulted r) := by
  rw [step, State.runState_of_fault h]

/-! ### The record a step latches -/

/-- The twelve cases are deterministic: the cycle has one next state. -/
theorem StepCase.unique (ht : StepCase s t) (hu : StepCase s u) : t = u := by
  have h := ht.cycle_eq.symm.trans hu.cycle_eq
  cases h
  rfl

/-- A step latches the record that one of its six faulting cases names. -/
theorem StepCase.fault_eq {r : FaultRecord} (hc : StepCase s t) (hr : StepCase s (s.latch r)) : t.fault = some r := by
  rw [hc.unique hr, State.latch_fault]

/-- In each of the three rows of 60_exceptions R84 the step latches the address 256. -/
theorem StepCase.memoryFault
    (h : s.pc.toNat = 256 ∨ (s.pc.toNat = 255 ∧ s.opcodeByte ∈ opcodesWithA) ∨
      (s.pc.toNat = 254 ∧ s.opcodeByte ∈ opcodesWithB)) :
    StepCase s (s.latch (.memoryAddressOutOfRange 256 s.pc)) := by
  rcases h with h256 | ⟨h255, hA⟩ | ⟨h254, hB⟩
  · have hc : StepCase s _ := .pastEnd (by omega)
    rwa [h256] at hc
  · exact .missingA h255 hA
  · exact .missingB h254 hB

/-- Where no place of 60_exceptions R87 applies no record fits, so the step latches none. -/
theorem StepCase.fault_eq_none (hc : StepCase s t) (hs : s.fault = none) (hle : s.pc.toNat ≤ 256)
    (h256 : s.pc.toNat ≠ 256) (hmem : s.opcodeByte ∈ tableOpcodes)
    (h255 : ¬ (s.opcodeByte ∈ opcodesWithA ∧ s.pc.toNat = 255))
    (h254 : ¬ (s.opcodeByte ∈ opcodesWithB ∧ s.pc.toNat = 254))
    (ha : ¬ (s.opcodeByte ∈ opcodesWithA ∧ 7 < s.byteA.toNat))
    (hb : ¬ (s.opcodeByte = 0xA2#8 ∧ 7 < s.byteB.toNat)) : t.fault = none := by
  cases hf : t.fault with
  | none => rfl
  | some r =>
    exfalso
    have hfits := hc.fits hs hle hf
    cases r with
    | unknownInstruction op pc =>
      obtain ⟨_, _, rfl, hout⟩ := hfits
      exact hout hmem
    | unsupportedAluOperation pc => exact hfits
    | memoryAddressOutOfRange address pc =>
      obtain ⟨rfl, _, hp | ⟨hp, hA⟩ | ⟨hp, hB⟩⟩ := hfits
      · exact h256 hp
      · exact h255 ⟨hA, hp⟩
      · exact h254 ⟨hB, hp⟩
    | registerIndexOutOfRange index pc =>
      obtain ⟨_, _, hindex, ⟨hA, rfl⟩ | ⟨ho, _, rfl⟩⟩ := hfits
      · exact ha ⟨hA, hindex⟩
      · exact hb ⟨ho, hindex⟩

/-! ### Instructions whose register operands exist -/

/-- A byte that passes the check of the syntax names a register (30_encoding R45). -/
theorem exists_regIndex_of_regOk {a : Byte} (h : regOk a = true) : ∃ r : RegIndex, a.toNat = r.val :=
  exists_regIndex_of_not_gt (Nat.not_lt.mpr (of_decide_eq_true h))

/-- An instruction whose register operands exist completes, with FAULT as before. -/
theorem exec_of_wellFormed (s : State) {i : Instr} (h : i.wellFormed = true) :
    ∃ t, exec i s = .next t ∧ t.fault = s.fault := by
  cases i with
  | ldi a imm =>
    obtain ⟨r, hr⟩ := exists_regIndex_of_regOk h
    exact ⟨_, exec_ldi_ok s a imm r hr, rfl⟩
  | prn a =>
    obtain ⟨r, hr⟩ := exists_regIndex_of_regOk h
    exact ⟨_, exec_prn_ok s a r hr, rfl⟩
  | hlt => exact ⟨_, exec_hlt s, rfl⟩
  | mul a b =>
    obtain ⟨ha, hb⟩ := Bool.and_eq_true_iff.mp h
    obtain ⟨ra, hra⟩ := exists_regIndex_of_regOk ha
    obtain ⟨rb, hrb⟩ := exists_regIndex_of_regOk hb
    exact ⟨_, exec_mul_ok s a b ra rb hra hrb, rfl⟩
  | push a =>
    obtain ⟨r, hr⟩ := exists_regIndex_of_regOk h
    exact ⟨_, exec_push_ok s a r hr, rfl⟩
  | pop a =>
    obtain ⟨r, hr⟩ := exists_regIndex_of_regOk h
    exact ⟨_, exec_pop_ok s a r hr, rfl⟩

/-! ### The obligations -/

/-- Settles O9: a record that a step latches fits the instruction at the pc, and each of the three rows determines the
step. -/
theorem memoryFaultsAreTheThreeCases : Obligations.MemoryFaultsAreTheThreeCases := by
  intro s t hle hstep
  obtain ⟨⟨_, hnone⟩, hc⟩ := case_of_step s hstep
  refine ⟨⟨fun ⟨address, pc, hf⟩ => ?_, fun h => ⟨256, s.pc, hc.fault_eq (.memoryFault h)⟩⟩, fun address pc hf => ?_⟩
  · obtain ⟨rfl, _, hrows⟩ := hc.fits hnone hle hf
    exact hrows
  · obtain ⟨hpc, haddress, _⟩ := hc.fits hnone hle hf
    exact ⟨haddress, hpc, by rw [hc.eq_latch hnone hf, State.latch_mem]⟩

/-- Settles O10: down the order, each place that is the first to apply is a faulting case of the step, and where none
applies no record fits. -/
theorem firstFaultInPriorityOrder : Obligations.FirstFaultInPriorityOrder := by
  intro s hrun hle
  obtain ⟨t, hstep, hc⟩ := step_case s hrun
  refine ⟨t, hstep, ?_, fun hf => ?_⟩
  · split_ifs with h256 hmem h255 h254 ha hb
    · exact hc.fault_eq (.memoryFault (.inl h256))
    · exact hc.fault_eq (.memoryFault (.inr (.inl h255.symm)))
    · exact hc.fault_eq (.memoryFault (.inr (.inr h254.symm)))
    · obtain ⟨hA, ha⟩ := ha
      have hne255 : s.pc.toNat ≠ 255 := fun hp => h255 ⟨hA, hp⟩
      have hfit (hB : s.opcodeByte ∈ opcodesWithB) : s.pc.toNat ≤ 253 := by
        have hne254 : s.pc.toNat ≠ 254 := fun hp => h254 ⟨hB, hp⟩
        omega
      exact hc.fault_eq (.badA (by omega) hA hfit ha)
    · obtain ⟨ho, hb⟩ := hb
      have hA : s.opcodeByte ∈ opcodesWithA := by rw [ho]; decide
      have hB : s.opcodeByte ∈ opcodesWithB := by rw [ho]; decide
      have hne255 : s.pc.toNat ≠ 255 := fun hp => h255 ⟨hA, hp⟩
      have hne254 : s.pc.toNat ≠ 254 := fun hp => h254 ⟨hB, hp⟩
      exact hc.fault_eq (.badB (by omega) ho (Nat.not_lt.mp fun h => ha ⟨hA, h⟩) hb)
    · exact hc.fault_eq_none hrun.2 hle h256 hmem h255 h254 ha hb
    · exact hc.fault_eq (.unknown (by omega) hmem)
  · obtain ⟨r, hr⟩ := Option.ne_none_iff_exists'.mp hf
    exact step_ne_next_of_fault hr

/-- Settles O11: in a step that ends with a fault the latch is the whole change, and the state it leaves is faulted. -/
theorem faultsArePrecise : Obligations.FaultsArePrecise := by
  refine ⟨fun _ _ => rfl, fun s t r hstep hf => ?_⟩
  obtain ⟨⟨_, hnone⟩, hc⟩ := case_of_step s hstep
  obtain rfl := hc.eq_latch hnone hf
  exact ⟨rfl, rfl, rfl, rfl, rfl, step_of_fault hf⟩

/-- Settles O25: the refusing cases of the index checks, and the completion of every well-formed instruction. -/
theorem registerIndexFaults : Obligations.RegisterIndexFaults := by
  refine ⟨fun s a imm ha => ?_, fun s a b ha hb => ?_, fun s i => exec_of_wellFormed s⟩
  · obtain ⟨hldi, hprn, hpush, hpop⟩ := exec_one_error s a imm ha
    exact ⟨hldi, hprn, hpush, hpop, fun b => exec_mul_error_a s a b ha⟩
  · obtain ⟨ra, hra⟩ := exists_regIndex_of_not_gt (Nat.not_lt.mpr ha)
    exact exec_mul_error_b s a b ra hra hb

/-- Settles O51: the code of each cause, and the status of each run state. -/
theorem outcomeAtTheEnd : Obligations.OutcomeAtTheEnd := by
  refine ⟨⟨rfl, fun _ _ => rfl, fun _ => rfl, fun _ _ => rfl, fun _ _ => rfl⟩,
    fun s h => ?_, fun s h => ?_, fun s h => ?_⟩
  · rw [State.exitStatus, State.runState_of_running h]
  · rw [State.exitStatus, State.runState_of_succeeded h]
  · obtain ⟨r, hr⟩ := Option.ne_none_iff_exists'.mp h
    rw [State.exitStatus, State.runState_of_fault hr]

/-- Settles O52: the three places of the view, one by one. -/
theorem traceViewShowsTheState : Obligations.TraceViewShowsTheState := by
  refine fun s => ⟨rfl, fun k hk => ?_, rfl, fun _ => rfl⟩
  match k, hk with
  | 0, _ => rfl
  | 1, _ => rfl
  | 2, _ => rfl

end Sys2Proof.Machine
end

section
/-! Program load, and the step where no program is (70_reset_and_hazards). -/

namespace Sys2Proof.Machine

open Sys2Proof

variable {s : State}

/-! ### Program load -/

/-- A load refuses exactly the bytes that do not fit (70_reset_and_hazards R99). -/
theorem State.loadProgram_eq_none_iff (bytes : List Byte) : s.loadProgram bytes = none ↔ 256 < bytes.length := by
  rw [Option.eq_none_iff_forall_ne_some]
  simp [State.loadProgram_eq_some_iff]

/-- After bytes are written from cell 0, cell `k` holds byte `k`, and the cells past them are as they were. -/
theorem Memory.read_writeBytes_loadBase (m : Memory) (bytes : List Byte) (k : Nat) :
    (m.writeBytes Config.loadBase bytes).read k = if h : k < bytes.length then bytes[k] else m.read k := by
  rw [Memory.read_writeBytes]
  by_cases h : k < bytes.length
  · simp [h]
  · simp [h]

/-! ### Running off the program -/

/-- In a cell that holds 0x00 the step finds no opcode of the table (30_encoding R48). -/
theorem step_of_zero_opcode (hrun : s.running) (hp : s.pc.toNat ≤ 255) (ho : s.opcodeByte = 0x00#8) :
    step s = .next (s.latch (.unknownInstruction 0x00#8 s.pc)) := by
  have hc : StepCase s _ := .unknown hp (by rw [ho]; decide)
  rw [ho] at hc
  exact step_eq_next_iff.mpr ⟨hrun, hc⟩

/-! ### The obligations -/

/-- Settles O48: a load refuses exactly what does not fit, and else writes the bytes from cell 0. -/
theorem programLoad : Obligations.ProgramLoad := by
  refine fun s bytes => ⟨(State.loadProgram_eq_none_iff bytes).mpr, fun hle => ?_⟩
  refine ⟨_, (State.loadProgram_eq_some_iff bytes).mpr ⟨hle, rfl⟩, Memory.read_writeBytes_loadBase s.mem bytes, ?_⟩
  exact ⟨rfl, rfl, rfl, rfl, rfl⟩

/-- Settles O49: reset is a running state at a cell that holds 0x00, and pc 256 is the first of the three rows of
60_exceptions R84. -/
theorem runningOffTheProgramFaults : Obligations.RunningOffTheProgramFaults := by
  refine ⟨?_, fun s => step_of_zero_opcode, fun s hrun hpc => ?_⟩
  · exact step_of_zero_opcode ⟨rfl, rfl⟩ (by decide) (State.reset_mem_read _)
  · have hc : StepCase s _ := .memoryFault (.inl (by rw [hpc]; rfl))
    rw [hpc] at hc
    exact step_eq_next_iff.mpr ⟨hrun, hc⟩

end Sys2Proof.Machine
end

section
/-! The states that have ended stop (40_dispatch_loop R63). -/

namespace Sys2Proof.Machine

open Sys2Proof

/-- Settles O7: a recorded fault names the stop, and without one a state with RUN false stops as halted. -/
theorem endedStatesStop : Obligations.EndedStatesStop :=
  ⟨fun _ _ hfault => step_of_fault hfault, fun _ hrun hfault => step_of_succeeded ⟨hrun, hfault⟩⟩

end Sys2Proof.Machine
end
